-- ==== Sys2Proof/Word.lean ====
section
/-! DEFINITION. The word types of HCORE.  Every value is an unsigned bit vector of a stated
width, bit 0 the least significant (`00_scope.md` R7, R10, R11). -/

namespace Sys2Proof

/-- The working word, a coordinate, and one half of an index: 32 bits (R7). -/
abbrev Word := BitVec 32

/-- The 16-bit value that `ILV16` takes and `DILV16` gives (R7). -/
abbrev Half := BitVec 16

/-- The 64-bit index n = {hi, lo} (R7, R41). -/
abbrev Index := BitVec 64

/-- A binary64 encoding: sign, biased exponent, fraction (R43). -/
abbrev Double := BitVec 64

/-- The OP field (R50). -/
abbrev Opcode := BitVec 3

/-- The request word `REQ = {OP, B, A}`, 67 bits (R50). -/
abbrev ReqWord := BitVec 67

end Sys2Proof
end

