-- ==== Sys2Proof/Machine/Operands.lean ====
section
/-! DEFINITION. The operand forms of R52: which bits of A and B an operation reads.  Every operand
is a whole data field: no sign extension, no scaling. -/

namespace Sys2Proof.Machine

/-- Interleave's operand: `A[15:0]`; the bits above are ignored (R52, R55). -/
def halfOperand (a : Word) : Half := a.extractLsb' 0 16

/-- The operand of the three 32-bit single-operand operations: `A[31:0]` (R52). -/
def wordOperand (a : Word) : Word := a

/-- `zext_32` of a 16-bit value (R11). -/
def zextHalf (h : Half) : Word := h.setWidth 32

/-- Bits 31:16 of a word (R10). -/
def highHalf (v : Word) : Half := v.extractLsb' 16 16

/-- Bits 15:0 of a word (R10). -/
def lowHalf (v : Word) : Half := v.extractLsb' 0 16

/-- The index `n = {hi, lo}` (R41). -/
def indexOf (lo hi : Word) : Index := hi ++ lo

/-- The low half of an index, carried by A or R0 (R41). -/
def indexLo (n : Index) : Word := n.extractLsb' 0 32

/-- The high half of an index, carried by B or R1 (R41). -/
def indexHi (n : Index) : Word := n.extractLsb' 32 32

end Sys2Proof.Machine
end

