-- ==== Sys2Proof/Syntax.lean ====
section
/-! DEFINITION. The instructions: one constructor per row of `spec/opcode_table.json`.
Every constructor keeps the whole B and A fields of its request, also where the operation
ignores them (R55), so that no bit of a request word is lost. -/

namespace Sys2Proof

/-- A request as an operation with its operand fields, B first as in `REQ = {OP, B, A}` (R50, R53). -/
inductive Instr where
  /-- OP 000, Interleave (R70): reads A[15:0]. -/
  | ilv (b a : Word)
  /-- OP 001, Deinterleave (R72): reads A. -/
  | dilv (b a : Word)
  /-- OP 010, GrayCode (R74): reads A. -/
  | gray (b a : Word)
  /-- OP 011, PrefixScan (R75): reads A. -/
  | pscan (b a : Word)
  /-- OP 100, CurveDecode (R100): B = hi, A = lo. -/
  | hdec (hi lo : Word)
  /-- OP 101, CurveEncode (R101): B = y, A = x. -/
  | henc (y x : Word)
  /-- OP 110, reserved (R54): ILLEGAL_OP; B and A ignored. -/
  | reserved6 (b a : Word)
  /-- OP 111, reserved (R54): ILLEGAL_OP; B and A ignored. -/
  | reserved7 (b a : Word)
deriving DecidableEq, Repr

end Sys2Proof
end

