-- ==== Sys2Proof/WellFormed.lean ====
section
/-! DEFINITION. The checks on raw numbers before they become request fields.  An `Instr` itself
needs none: the widths of OP, B and A are in its types, and every combination is a request
(R57, R120). -/

namespace Sys2Proof

/-- A number spells a request word if it has no bit above bit 66 (R50, R56). -/
def wfReqWord (n : Nat) : Bool := decide (n < 2 ^ 67)

/-- "An operand literal must fit in 32 bits" (R59). -/
def wfOperand (n : Nat) : Bool := decide (n < 2 ^ 32)

/-- The operand of `hdec64` is "a 64-bit literal" (R60). -/
def wfIndexOperand (n : Nat) : Bool := decide (n < 2 ^ 64)

/-- At most the three names `r0name`, `r1name`, `f64name` follow the arrow (R58). -/
def wfNameCount (n : Nat) : Bool := decide (n ≤ 3)

end Sys2Proof
end

