-- ==== Sys2Proof/Decode.lean ====
section
/-! DEFINITION. The decoder, total on every 67-bit request word (R57), and the encoder, both from
the format of R50 and the opcode map of R53. -/

namespace Sys2Proof

/-- The OP field that selects each operation (R53, R54). -/
def Instr.opcode : Instr → Opcode
  | .ilv _ _ => 0#3
  | .dilv _ _ => 1#3
  | .gray _ _ => 2#3
  | .pscan _ _ => 3#3
  | .hdec _ _ => 4#3
  | .henc _ _ => 5#3
  | .reserved6 _ _ => 6#3
  | .reserved7 _ _ => 7#3

/-- The B field of the request (R50, R52). -/
def Instr.portB : Instr → Word
  | .ilv b _ => b
  | .dilv b _ => b
  | .gray b _ => b
  | .pscan b _ => b
  | .hdec hi _ => hi
  | .henc y _ => y
  | .reserved6 b _ => b
  | .reserved7 b _ => b

/-- The A field of the request (R50, R52). -/
def Instr.portA : Instr → Word
  | .ilv _ a => a
  | .dilv _ a => a
  | .gray _ a => a
  | .pscan _ a => a
  | .hdec _ lo => lo
  | .henc _ x => x
  | .reserved6 _ a => a
  | .reserved7 _ a => a

/-- OP 6 and 7 are the reserved opcodes, 0 to 5 the defined ones (R18, R54). -/
def Instr.isReserved : Instr → Bool
  | .ilv _ _ => false
  | .dilv _ _ => false
  | .gray _ _ => false
  | .pscan _ _ => false
  | .hdec _ _ => false
  | .henc _ _ => false
  | .reserved6 _ _ => true
  | .reserved7 _ _ => true

/-- `OP = REQ[66:64]` (R50). -/
def reqOp (w : ReqWord) : Opcode := w.extractLsb' 64 3

/-- `B = REQ[63:32]` (R50). -/
def reqB (w : ReqWord) : Word := w.extractLsb' 32 32

/-- `A = REQ[31:0]` (R50). -/
def reqA (w : ReqWord) : Word := w.extractLsb' 0 32

/-- `REQ = {OP, B, A}` (R50). -/
def packReq (op : Opcode) (b a : Word) : ReqWord := op ++ b ++ a

/-- The operation OP selects, with its operand fields (R53, R54).  The last arm is OP = 7, the
one value of three bits that is left. -/
def selectOp (op : Opcode) (b a : Word) : Instr :=
  match op.toNat with
  | 0 => .ilv b a
  | 1 => .dilv b a
  | 2 => .gray b a
  | 3 => .pscan b a
  | 4 => .hdec b a
  | 5 => .henc b a
  | 6 => .reserved6 b a
  | _ => .reserved7 b a

/-- `decode(REQ)`: looks at `REQ[66:64]` alone to select the operation (R57). -/
def decode (w : ReqWord) : Instr := selectOp (reqOp w) (reqB w) (reqA w)

/-- Why a number decodes to no instruction. -/
inductive DecodeRefusal where
  /-- It has a bit above bit 66, so it spells no request word (R50, R56). -/
  | notARequestWord
deriving DecidableEq, Repr

/-- The decoder on a number of any size: it refuses, by name, what is no 67-bit word (log 13). -/
def decodeNat (n : Nat) : Except DecodeRefusal Instr :=
  if wfReqWord n then .ok (decode (BitVec.ofNat 67 n)) else .error .notARequestWord

/-- The request word of an instruction (R50, R53). -/
def encode (i : Instr) : ReqWord := packReq i.opcode i.portB i.portA

/-- The instruction the decoder reads from a word numbered as `spec/opcode_table.json` numbers
it; `nbits` is the row's length in whole bytes, so bits 67 and up are padding and must be 0
(log 13). -/
def decodeTableWord (nbits w : Nat) : Option Instr := (decodeNat (w % 2 ^ nbits)).toOption

/-- One hexadecimal digit, upper case, as the spec writes request words (R50). -/
def hexDigit (d : Nat) : Char :=
  if d < 10 then Char.ofNat (48 + d) else Char.ofNat (55 + d)

/-- The low `k` hexadecimal digits of `n`, most significant first. -/
def hexDigits : Nat → Nat → List Char
  | 0, _ => []
  | k + 1, n => hexDigit (n / 16 ^ k % 16) :: hexDigits k n

/-- The spelling `O_BBBBBBBB_AAAAAAAA` of a request word (R50). -/
def spellReq (w : ReqWord) : List Char :=
  hexDigits 1 (reqOp w).toNat ++ '_' :: hexDigits 8 (reqB w).toNat ++
    '_' :: hexDigits 8 (reqA w).toNat

end Sys2Proof
end

