-- ==== Sys2Proof/Machine/Flags.lean ====
section
/-! DEFINITION. ERR, the only flag: a field of one response, written on every response, 1 for a
reserved opcode and 0 otherwise, never sticky and read by no operation (R25). -/

namespace Sys2Proof.Machine

/-- ERR of the response to a request with this opcode (R25, R121). -/
def errFlag (op : Opcode) : Bool := decide (6#3 ≤ op)

end Sys2Proof.Machine
end

