-- ==== Sys2Proof/Config.lean ====
section
/-! DEFINITION. What a build of HCORE fixes, at the values `State.reset` uses, and the free
values.  `LATENCY` (R8) and `HAS_F64` (R9) are OPEN parameters: they stand in State (the length
of the delay line, and `hasF64`), no step changes them, and a claim over every state is a claim
over every build. -/

namespace Sys2Proof

/-- DESIGN CHOICE (log 1): the `LATENCY` of `State.reset`.  The spec leaves the value open (R8);
0 is the combinational block, in which one step takes a request and yields its response (R19). -/
def Config.resetLatency : Nat := 0

/-- The default of `HAS_F64` (R9). -/
def Config.resetHasF64 : Bool := true

/-- The free values (log 3): the packed response {ERR, F64, R1, R0} of R51 that the `n`-th draw
gives wherever the spec says "any value" (R31, R146, I3, I4).  It has no body. -/
opaque Config.freeRsp : Nat → BitVec 129

end Sys2Proof
end

