-- ==== Sys2Proof/Machine/State.lean ====
section
/-! DEFINITION. What HCORE holds: the delay line of a pipelined build (R29), the two build
parameters (R26), the ports (R21, R22), and the fault mark (R123).  There is nothing else: no
registers, program counter, memory, flags, modes or interrupt state (R20, R24 to R28, R124, R129). -/

namespace Sys2Proof.Machine

/-- The response fields, presented together (R22, R51). -/
structure Response where
  /-- First result. -/
  r0 : Word
  /-- Second result. -/
  r1 : Word
  /-- The F64 port: `none` in a build with `HAS_F64 = false`, where it does not exist (R9, R22; log 12). -/
  f64 : Option Double
  /-- 1 for a reserved opcode, 0 otherwise (R25). -/
  err : Bool
deriving DecidableEq, Repr

/-- One slot of the delay line: the valid bit `v_s` and the response it delays (R29; log 4). -/
structure Slot where
  valid : Bool
  data : Response
deriving DecidableEq, Repr

/-- What the host drives on the input ports in one clock cycle (R21, R23). -/
structure Cycle where
  /-- `rst`, synchronous and active high. -/
  rst : Bool
  /-- `in_valid`: a request is present this cycle. -/
  inValid : Bool
  op : Opcode
  a : Word
  b : Word
deriving DecidableEq, Repr

/-- The state of HCORE between two clock cycles. -/
structure State where
  /-- Slots 1 to `LATENCY`, slot 1 first (R29).  Its length is the parameter `LATENCY` (R8). -/
  line : List Slot
  /-- The parameter `HAS_F64` (R9). -/
  hasF64 : Bool
  /-- What the host drives in the coming cycles, the next one first (log 6). -/
  inputs : List Cycle
  /-- `out_valid` in the cycle just run (R22; log 5). -/
  outValid : Bool
  /-- R0, R1, F64 and ERR in the cycle just run (R22; log 5). -/
  out : Response
  /-- The mark of R123: some accepted request had a reserved opcode. -/
  faultMark : Bool
  /-- The model's own count of free values drawn (log 3). -/
  draws : Nat
deriving DecidableEq, Repr

/-- Reasons to stop with a fault.  HCORE has none: "no failure path" (R120), and ILLEGAL_OP is a
normal outcome (R123).  Nobody raises one (log 20). -/
inductive Fault where
deriving DecidableEq, Repr

/-- Reasons for a refusal. -/
inductive Refusal where
  /-- Raised only by an arm of `exec` whose instruction has no meaning yet; safe.  No arm raises it. -/
  | notModelled (mnemonic : String)
deriving DecidableEq, Repr

/-- The zero response with the ports of the build (R52). -/
def zeroResponse (hasF64 : Bool) : Response :=
  { r0 := 0, r1 := 0, f64 := if hasF64 then some 0 else none, err := false }

/-- An empty slot with zero data. -/
def emptySlot (hasF64 : Bool) : Slot := { valid := false, data := zeroResponse hasF64 }

/-- The state right after reset of the build with the given `LATENCY` and `HAS_F64`: every valid
bit and `out_valid` 0 (R31), fault mark clear (R123).  The zero data is a DESIGN CHOICE (log 2). -/
def State.resetFor (latency : Nat) (hasF64 : Bool) : State :=
  { line := List.replicate latency (emptySlot hasF64)
    hasF64 := hasF64
    inputs := []
    outValid := false
    out := zeroResponse hasF64
    faultMark := false
    draws := 0 }

/-- The state right after reset, of the build that `Config` names (log 1). -/
def State.reset : State := State.resetFor Config.resetLatency Config.resetHasF64

end Sys2Proof.Machine
end

