-- ==== Sys2Proof/Machine/Ops.lean ====
section
/-! DEFINITION. The shared operations: building and packing responses, the free values, one clock
cycle of the delay line, taking ILLEGAL_OP, the reset cycle, and reading the request ports. -/

namespace Sys2Proof.Machine

/-! ### Responses -/

/-- The F64 port holding `v`; no port in a build without it (R9, R22, R101). -/
def f64Port (hasF64 : Bool) (v : Double) : Option Double := if hasF64 then some v else none

/-- The response of a single-result operation: R1 = 0 and F64 = 0 (R52). -/
def respondOne (hasF64 : Bool) (op : Opcode) (r0 : Word) : Response :=
  { r0 := r0, r1 := 0, f64 := f64Port hasF64 0, err := errFlag op }

/-- The response of an operation with two results and, where the port exists, a float (R52). -/
def respondTwo (hasF64 : Bool) (op : Opcode) (r0 r1 : Word) (f : Double) : Response :=
  { r0 := r0, r1 := r1, f64 := f64Port hasF64 f, err := errFlag op }

/-- The packed spelling `RSP = {ERR, F64, R1, R0}`, 129 bits (R51).  It is the spelling of a build
with `HAS_F64`; an absent F64 field packs as 0. -/
def Response.pack (r : Response) : BitVec 129 := BitVec.ofBool r.err ++ r.f64.getD 0 ++ r.r1 ++ r.r0

/-- The packed spelling `{ERR, R1, R0}`, 65 bits, of a build with `HAS_F64 = false` (R51). -/
def Response.packNoF64 (r : Response) : BitVec 65 := BitVec.ofBool r.err ++ r.r1 ++ r.r0

/-- The response that a packed RSP spells: ERR in bit 128, F64 in bits 127:64, R1 in bits 63:32,
R0 in bits 31:0 (R51). -/
def Response.unpack (hasF64 : Bool) (v : BitVec 129) : Response :=
  { r0 := v.extractLsb' 0 32
    r1 := v.extractLsb' 32 32
    f64 := f64Port hasF64 (v.extractLsb' 64 64)
    err := v.getLsbD 128 }

/-- The response that a packed 65-bit RSP spells (R51). -/
def Response.unpackNoF64 (v : BitVec 65) : Response :=
  { r0 := v.extractLsb' 0 32, r1 := v.extractLsb' 32 32, f64 := none, err := v.getLsbD 64 }

/-! ### Free values -/

/-- The response that draw `n` gives: any value of every field the build has (R31, R146; log 3). -/
def drawResponse (hasF64 : Bool) (n : Nat) : Response := Response.unpack hasF64 (Config.freeRsp n)

/-- An empty slot whose data is draw `n` (R31, I4; log 3). -/
def drawSlot (hasF64 : Bool) (n : Nat) : Slot := { valid := false, data := drawResponse hasF64 n }

/-- `k` empty slots whose data are the draws from `n` on. -/
def drawSlots (hasF64 : Bool) (n : Nat) : Nat → List Slot
  | 0 => []
  | k + 1 => drawSlot hasF64 n :: drawSlots hasF64 (n + 1) k

/-! ### One clock cycle -/

/-- The parameter `LATENCY` (R8): how many slots the delay line has (R29). -/
def State.latency (s : State) : Nat := s.line.length

/-- The slot whose valid bit is `out_valid` in a cycle in which `new` enters: slot `LATENCY`, or
`new` itself where `LATENCY = 0` and the block is combinational (R29, R144). -/
def State.leaving (s : State) (new : Slot) : Slot := s.line.getLastD new

/-- One rising edge of `clk`: `new` enters the delay line, every slot moves on by one, and the
ports present the leaving slot (R29, R144).  With `out_valid = 0` the response fields are any
value (R146). -/
def State.clock (s : State) (new : Slot) : State :=
  { s with
    line := (new :: s.line).dropLast
    outValid := (s.leaving new).valid
    out := if (s.leaving new).valid then (s.leaving new).data else drawResponse s.hasF64 s.draws
    draws := s.draws + 1 }

/-- The cycle in which a request is accepted whose response is `r` (R143, R144). -/
def State.accept (s : State) (r : Response) : State := s.clock { valid := true, data := r }

/-- A cycle that issues no operation (R143, D20): an empty slot enters. -/
def State.idleCycle (s : State) : State :=
  { s.clock (drawSlot s.hasF64 (s.draws + 1)) with draws := s.draws + 2 }

/-- A cycle with `rst = 1` in a build with `LATENCY ≥ 1`: its request is not accepted, and the
edge clears every valid bit, so that in-flight requests are discarded (R140).  The leaving slot is
still presented: `out_valid` is 0 from the NEXT cycle on (R140; log 7).  Slot data is then any
value (R31). -/
def State.resetCycle (s : State) : State :=
  { s.idleCycle with
    line := drawSlots s.hasF64 (s.draws + 2) s.latency
    draws := s.draws + 2 + s.latency }

/-- The slot of the request accepted in the cycle just run: slot 1, or the ports themselves where
`LATENCY = 0`. -/
def State.newest (s : State) : Slot := s.line.headD { valid := s.outValid, data := s.out }

/-! ### The exception -/

/-- The ILLEGAL_OP response: R0 = 0, R1 = 0, F64 = 0, ERR = 1 (R54, R121). -/
def illegalResponse (hasF64 : Bool) (op : Opcode) : Response := respondTwo hasF64 op 0 0 0

/-- `raise ILLEGAL_OP(OP)`, the only exception (R13, R121).  It is no trap: it saves no state and
transfers no control (R126), and there is no return from it (R127).  The request gets its response
at its place in the order, and the fault mark is set (R123; log 9). -/
def State.raiseIllegalOp (s : State) (op : Opcode) : State :=
  { s.accept (illegalResponse s.hasF64 op) with faultMark := true }

/-! ### The request ports -/

/-- A cycle in which the host drives no request and no reset (D20; the operand ports are then
read by nothing). -/
def Cycle.idle : Cycle := { rst := false, inValid := false, op := 0, a := 0, b := 0 }

/-- The request word on the ports (R50). -/
def Cycle.word (c : Cycle) : ReqWord := packReq c.op c.b c.a

/-- The cycle in which the host issues the request `w`. -/
def Cycle.ofReqWord (w : ReqWord) : Cycle :=
  { rst := false, inValid := true, op := reqOp w, a := reqA w, b := reqB w }

/-- What the host drives in the coming cycle; past the end of its schedule it drives an idle cycle (log 6). -/
def State.ports (s : State) : Cycle := s.inputs.headD Cycle.idle

/-- The state once the ports of the coming cycle are sampled (R21). -/
def State.sampled (s : State) : State := { s with inputs := s.inputs.tail }

/-- What a clock cycle does. -/
inductive CycleKind where
  | reset
  | request
  | idle
deriving DecidableEq, Repr

/-- `rst = 1` makes a reset cycle where `LATENCY ≥ 1` and has no effect where `LATENCY = 0` (R23,
R140; log 8); otherwise `in_valid` says whether a request is accepted (R143). -/
def State.cycleKind (s : State) : CycleKind :=
  if s.ports.rst && decide (0 < s.latency) then .reset
  else if s.ports.inValid then .request
  else .idle

end Sys2Proof.Machine
end

