-- ==== Sys2Proof/Machine/BitPrimitives.lean ====
section
/-! DEFINITION. The four bit primitives, by the cascades of `40_bit_primitives.md`.  Every right
shift is logical (R12, D9). -/

namespace Sys2Proof.Machine

/-- `ILV16` (R70): bit i of the operand lands at bit 2i. -/
def ilv16 (t : Half) : Word :=
  let v := zextHalf t
  let v := (v ||| v <<< 8) &&& 0x00FF00FF#32
  let v := (v ||| v <<< 4) &&& 0x0F0F0F0F#32
  let v := (v ||| v <<< 2) &&& 0x33333333#32
  (v ||| v <<< 1) &&& 0x55555555#32

/-- `DILV16` (R72): the even-indexed bits, packed (five masks, C2). -/
def dilv16 (v32 : Word) : Half :=
  let v := v32 &&& 0x55555555#32
  let v := (v ||| v >>> 1) &&& 0x33333333#32
  let v := (v ||| v >>> 2) &&& 0x0F0F0F0F#32
  let v := (v ||| v >>> 4) &&& 0x00FF00FF#32
  let v := (v ||| v >>> 8) &&& 0x0000FFFF#32
  v.extractLsb' 0 16

/-- `GRAY32` (R74). -/
def gray32 (v : Word) : Word := v ^^^ v >>> 1

/-- One step of PrefixScan, `v ^ (v >>> k)` (R75, R76). -/
def pscanStep (v : Word) (k : Nat) : Word := v ^^^ v >>> k

/-- `PSCAN32` (R75): the steps at k = 1, 2, 4, 8, 16 in that order. -/
def pscan32 (v : Word) : Word :=
  pscanStep (pscanStep (pscanStep (pscanStep (pscanStep v 1) 2) 4) 8) 16

/-- The response to `ilv` (R70). -/
def ilvResponse (hasF64 : Bool) (a : Word) : Response := respondOne hasF64 0#3 (ilv16 (halfOperand a))

/-- The response to `dilv` (R72). -/
def dilvResponse (hasF64 : Bool) (a : Word) : Response :=
  respondOne hasF64 1#3 (zextHalf (dilv16 (wordOperand a)))

/-- The response to `gray` (R74). -/
def grayResponse (hasF64 : Bool) (a : Word) : Response := respondOne hasF64 2#3 (gray32 (wordOperand a))

/-- The response to `pscan` (R75). -/
def pscanResponse (hasF64 : Bool) (a : Word) : Response := respondOne hasF64 3#3 (pscan32 (wordOperand a))

/-- `ilv` (R70); B is ignored (R55). -/
def execIlv (_b a : Word) (s : State) : Host.Outcome State Fault Refusal :=
  .next (s.accept (ilvResponse s.hasF64 a))

/-- `dilv` (R72); B is ignored (R55). -/
def execDilv (_b a : Word) (s : State) : Host.Outcome State Fault Refusal :=
  .next (s.accept (dilvResponse s.hasF64 a))

/-- `gray` (R74); B is ignored (R55). -/
def execGray (_b a : Word) (s : State) : Host.Outcome State Fault Refusal :=
  .next (s.accept (grayResponse s.hasF64 a))

/-- `pscan` (R75); B is ignored (R55). -/
def execPscan (_b a : Word) (s : State) : Host.Outcome State Fault Refusal :=
  .next (s.accept (pscanResponse s.hasF64 a))

end Sys2Proof.Machine
end

