-- ==== Sys2Proof/Machine/Float.lean ====
section
/-! DEFINITION. The float value of an index (R99) in binary64 (R43).  Layout and tie rule are the
spec's general-knowledge items G2 and G3 (log 11). -/

namespace Sys2Proof.Machine

/-- Bit 63, the sign (R43). -/
def f64Sign (v : Double) : Bool := v.getLsbD 63

/-- Bits 62:52, the biased exponent, bias 1023 (R43). -/
def f64Exponent (v : Double) : Nat := (v.extractLsb' 52 11).toNat

/-- Bits 51:0, the fraction (R43). -/
def f64Fraction (v : Double) : Nat := (v.extractLsb' 0 52).toNat

/-- Neither infinite nor NaN: the exponent field is not all ones (R43). -/
def f64Finite (v : Double) : Bool := f64Exponent v != 2047

/-- The magnitude of a finite double as a multiple of 2^-1074, the smallest subnormal (R43). -/
def f64Magnitude (v : Double) : Nat :=
  if f64Exponent v = 0 then f64Fraction v else (2 ^ 52 + f64Fraction v) * 2 ^ (f64Exponent v - 1)

/-- The value of a finite double as a multiple of 2^-1074 (R43). -/
def f64Scaled (v : Double) : Int := if f64Sign v then -(f64Magnitude v : Int) else f64Magnitude v

/-- `n / 2^k` rounded to the nearest integer, a tie to the even one (R99). -/
def roundShift (n k : Nat) : Nat :=
  let q := n / 2 ^ k
  let r := n % 2 ^ k
  if 2 ^ k < 2 * r ∨ (2 * r = 2 ^ k ∧ q % 2 = 1) then q + 1 else q

/-- The 53-bit significand of a positive `n` whose leading bit is bit `e` (R99).  Rounding up may
give 2^53, which `f64OfNat` carries into the exponent. -/
def significand (n e : Nat) : Nat := if e ≤ 52 then n * 2 ^ (52 - e) else roundShift n (e - 52)

/-- The binary64 encoding of `n < 2^64`, rounded to nearest, ties to even (R43, R99). -/
def f64OfNat (n : Nat) : Double :=
  if n = 0 then 0
  else BitVec.ofNat 64 ((n.log2 + 1023) * 2 ^ 52 + (significand n n.log2 - 2 ^ 52))

/-- `F64VAL(lo, hi)`: the float of n = hi * 2^32 + lo (R99). -/
def f64val (lo hi : Word) : Double := f64OfNat (hi.toNat * 2 ^ 32 + lo.toNat)

end Sys2Proof.Machine
end

