-- ==== Sys2Proof/Machine/Curve.lean ====
section
/-! DEFINITION. The two curve transforms, by the formulas of `41_hilbert_curve.md`. -/

namespace Sys2Proof.Machine

/-! ### CurveDecode -/

/-- The plane `odd`: bit j is index bit 2j (R17, R90, R91 step 1). -/
def oddPlane (lo hi : Word) : Word := zextHalf (dilv16 hi) <<< 16 ||| zextHalf (dilv16 lo)

/-- The plane `even`: bit j is index bit 2j+1 (R17, R90, R91 step 1). -/
def evenPlane (lo hi : Word) : Word :=
  zextHalf (dilv16 (hi >>> 1)) <<< 16 ||| zextHalf (dilv16 (lo >>> 1))

/-- `x` from the planes (R91 step 2). -/
def hdecX (odd even : Word) : Word :=
  (odd &&& pscan32 (~~~(odd ||| even))) ^^^ (~~~odd &&& pscan32 (odd &&& even)) ^^^ even

/-- `HDEC(lo, hi) → (x, y)` (R91). -/
def hdecFn (lo hi : Word) : Word × Word :=
  let odd := oddPlane lo hi
  let x := hdecX odd (evenPlane lo hi)
  (x, x ^^^ odd)

/-- HDEC on a 64-bit index n = {hi, lo} (R41, R91). -/
def hdecIndex (n : Index) : Word × Word := hdecFn (indexLo n) (indexHi n)

/-! ### CurveEncode -/

/-- The working values of the reference algorithm; no other rule can observe them (R15, R95). -/
structure Rounds where
  a : Word
  b : Word
  c : Word
  d : Word
deriving DecidableEq, Repr

/-- Round 1, shift width 1, from `odd` and the initial a and b (R94, R95). -/
def hencFirst (odd a b : Word) : Rounds :=
  { a := a ^^^ a >>> 1 ^^^ (odd &&& b >>> 1)
    b := b ^^^ b >>> 1 ^^^ (~~~odd &&& a >>> 1)
    c := odd ||| ~~~odd >>> 1
    d := odd ^^^ odd >>> 1 }

/-- The update of `a` at shift width `k` (R96, R97). -/
def hencA (w : Rounds) (k : Nat) : Word := w.a ^^^ (w.d &&& w.b >>> k) ^^^ ((w.c ^^^ w.d) &&& w.a >>> k)

/-- The update of `b` at shift width `k` (R96, R97). -/
def hencB (w : Rounds) (k : Nat) : Word := w.b ^^^ (w.c &&& w.b >>> k) ^^^ (w.d &&& w.a >>> k)

/-- A round at shift width `k`: all four values at once (R96). -/
def hencRound (w : Rounds) (k : Nat) : Rounds :=
  { a := hencA w k
    b := hencB w k
    c := (w.c &&& w.c >>> k) ^^^ (w.d &&& w.d >>> k)
    d := (w.c &&& w.d >>> k) ^^^ (w.d &&& (w.c ^^^ w.d) >>> k) }

/-- The final round at shift width 16 updates only a and b (R97). -/
def hencLast (w : Rounds) : Rounds := { w with a := hencA w 16, b := hencB w 16 }

/-- The five rounds, at shift widths 1, 2, 4, 8 and 16, from x and y (R94 to R97, C1). -/
def hencRounds (x y : Word) : Rounds :=
  hencLast (hencRound (hencRound (hencRound (hencFirst (x ^^^ y) (x &&& ~~~y) (~~~(x ||| y))) 2) 4) 8)

/-- The second plane `even` (R98 step 3). -/
def hencEven (x y : Word) : Word :=
  gray32 (hencRounds x y).a ||| ~~~((x ^^^ y) ||| gray32 (hencRounds x y).b)

/-- `ILV16(even) * 2 + ILV16(odd)` of one 16-bit chunk of each plane (R98 step 4). -/
def packHalf (even odd : Half) : Word := ilv16 even * 2#32 + ilv16 odd

/-- `HENC(x, y) → (lo, hi)`, by the reference algorithm (R94 to R98).  R93 defines HENC as the
inverse of HDEC and wins over the algorithm; that the two agree is an obligation (log 10). -/
def hencFn (x y : Word) : Word × Word :=
  let odd := x ^^^ y
  let even := hencEven x y
  (packHalf (lowHalf even) (lowHalf odd), packHalf (highHalf even) (highHalf odd))

/-! ### The instructions -/

/-- The response to `hdec` (R100). -/
def hdecResponse (hasF64 : Bool) (hi lo : Word) : Response :=
  respondTwo hasF64 4#3 (hdecFn lo hi).1 (hdecFn lo hi).2 0

/-- The response to `henc` (R101). -/
def hencResponse (hasF64 : Bool) (y x : Word) : Response :=
  respondTwo hasF64 5#3 (hencFn x y).1 (hencFn x y).2 (f64val (hencFn x y).1 (hencFn x y).2)

/-- `hdec` (R100): B = hi, A = lo. -/
def execHdec (hi lo : Word) (s : State) : Host.Outcome State Fault Refusal :=
  .next (s.accept (hdecResponse s.hasF64 hi lo))

/-- `henc` (R101): B = y, A = x. -/
def execHenc (y x : Word) (s : State) : Host.Outcome State Fault Refusal :=
  .next (s.accept (hencResponse s.hasF64 y x))

end Sys2Proof.Machine
end

