-- ==== Sys2Proof/Machine/Reserved.lean ====
section
/-! DEFINITION. The reserved opcodes: accepted like any other request, answered with ILLEGAL_OP
(R54, R121). -/

namespace Sys2Proof.Machine

/-- OP = 110 (R54, R121); B and A are ignored. -/
def execReserved6 (_b _a : Word) (s : State) : Host.Outcome State Fault Refusal :=
  .next (s.raiseIllegalOp 6#3)

/-- OP = 111 (R54, R121); B and A are ignored. -/
def execReserved7 (_b _a : Word) (s : State) : Host.Outcome State Fault Refusal :=
  .next (s.raiseIllegalOp 7#3)

end Sys2Proof.Machine
end

