-- ==== Sys2Proof/Machine/Dispatch.lean ====
section
/-! DEFINITION. One arm per instruction: the clock cycle in which it is accepted (R19, R143). -/

namespace Sys2Proof.Machine

def exec (i : Instr) (s : State) : Host.Outcome State Fault Refusal :=
  match i with
  | .ilv b a => Sys2Proof.Machine.execIlv b a s
  | .dilv b a => Sys2Proof.Machine.execDilv b a s
  | .gray b a => Sys2Proof.Machine.execGray b a s
  | .pscan b a => Sys2Proof.Machine.execPscan b a s
  | .hdec hi lo => Sys2Proof.Machine.execHdec hi lo s
  | .henc y x => Sys2Proof.Machine.execHenc y x s
  | .reserved6 b a => Sys2Proof.Machine.execReserved6 b a s
  | .reserved7 b a => Sys2Proof.Machine.execReserved7 b a s

end Sys2Proof.Machine
end

