-- ==== Sys2Proof/Machine/Step.lean ====
section
/-! DEFINITION. One step is one cycle of `clk`: the ports are sampled, and the cycle is a reset
cycle, the acceptance of a request, or idle (R21, R140, R143). -/

namespace Sys2Proof.Machine

def step (s : State) : Host.Outcome State Fault Refusal :=
  match s.cycleKind with
  | .reset => .next s.sampled.resetCycle
  | .request => exec (decode s.ports.word) s.sampled
  | .idle => .next s.sampled.idleCycle

/-- `s` with the request word `w` (numbered as the opcode table numbers it) on the ports of the
very next cycle, `in_valid = 1` and `rst = 0`; the later cycles of the schedule stay (log 6). -/
def State.withFetchWord (s : State) (nbits w : Nat) : State :=
  { s with inputs := Cycle.ofReqWord (BitVec.ofNat 67 (w % 2 ^ nbits)) :: s.inputs.tail }

end Sys2Proof.Machine
end

