-- ==== Sys2Proof/Machine/Transaction.lean ====
section
/-! DEFINITION. The transaction-level view: `Exec : Request → Response`, a total pure function of
OP, A, B and `HAS_F64` alone (R19, R30, R32). -/

namespace Sys2Proof.Machine

/-- The response to a request (R19, R32). -/
def respond (hasF64 : Bool) : Instr → Response
  | .ilv _ a => ilvResponse hasF64 a
  | .dilv _ a => dilvResponse hasF64 a
  | .gray _ a => grayResponse hasF64 a
  | .pscan _ a => pscanResponse hasF64 a
  | .hdec hi lo => hdecResponse hasF64 hi lo
  | .henc y x => hencResponse hasF64 y x
  | .reserved6 _ _ => illegalResponse hasF64 6#3
  | .reserved7 _ _ => illegalResponse hasF64 7#3

/-- `Exec(OP, A, B)` on a request word (R32). -/
def transact (hasF64 : Bool) (w : ReqWord) : Response := respond hasF64 (decode w)

end Sys2Proof.Machine
end

