-- ==== Sys2Proof/Machine/Assembler.lean ====
section
/-! DEFINITION. The assembler of `30_encoding.md` section 4: one line of text is one request
(R58), literals (R59), pseudo-instructions (R60), and the host variables that `->` binds.  A line
is refused, by name, where it has no meaning.  Points the spec leaves open: log 14, 15, 16. -/

namespace Sys2Proof.Machine

/-! ### Lines -/

/-- The name of a host variable. -/
abbrev Name := List Char

/-- The six mnemonics of R53 and the pseudo-instructions of R60.  The pseudo-instruction
`henc x, y -> n64` is `henc` with one name after the arrow. -/
inductive AsmOp where
  | ilv | dilv | gray | pscan | hdec | henc
  | interleave | deinterleave | grayenc | graydec | hdec64
deriving DecidableEq, Repr

/-- "An operand is a literal or the name of a host variable" (R58). -/
inductive Operand where
  | lit (n : Nat)
  | var (x : Name)
deriving DecidableEq, Repr

/-- `<mnemonic> <opA> [, <opB>] [-> names]` (R58). -/
structure AsmLine where
  op : AsmOp
  opA : Operand
  opB : Option Operand
  names : List Name
deriving DecidableEq, Repr

/-- Why the assembler, or the host that runs its lines, refuses a line. -/
inductive AsmRefusal where
  /-- The first word is no mnemonic of R53 or R60. -/
  | unknownMnemonic
  /-- An operand is neither a literal of R59 nor a name. -/
  | badOperand
  /-- No operand, more than two, or a second one where R60 gives the pseudo-instruction one. -/
  | operandCount
  /-- A name after `->` is no name, or more than three names stand there (R58). -/
  | badNames
  /-- A host variable that no earlier `->` bound (R58). -/
  | unboundVariable
  /-- The operand does not fit its field (R59, R60). -/
  | operandTooWide
  /-- A name for F64 in a build without that port (R9). -/
  | noF64Port
deriving DecidableEq, Repr

/-! ### Text -/

/-- A decimal digit's value. -/
def decDigit (c : Char) : Option Nat :=
  if '0' ≤ c ∧ c ≤ '9' then some (c.toNat - 48) else none

/-- A hexadecimal digit's value, in either case. -/
def hexDigitValue (c : Char) : Option Nat :=
  if 'a' ≤ c ∧ c ≤ 'f' then some (c.toNat - 87)
  else if 'A' ≤ c ∧ c ≤ 'F' then some (c.toNat - 55)
  else decDigit c

/-- The number that digits spell; `_` may stand between two digits and has no value (R59).
`afterDigit` says whether the character before was a digit. -/
def digitsValue (digit : Char → Option Nat) (base : Nat) : Nat → Bool → List Char → Option Nat
  | acc, afterDigit, [] => if afterDigit then some acc else none
  | acc, afterDigit, c :: cs =>
    if c = '_' then (if afterDigit then digitsValue digit base acc false cs else none)
    else
      match digit c with
      | some d => digitsValue digit base (acc * base + d) true cs
      | none => none

/-- A literal: `0x` and hexadecimal digits, or a plain decimal number (R59). -/
def parseLiteral : List Char → Option Nat
  | '0' :: 'x' :: ds => digitsValue hexDigitValue 16 0 false ds
  | ds => digitsValue decDigit 10 0 false ds

def isLetter (c : Char) : Bool := ('a' ≤ c ∧ c ≤ 'z') ∨ ('A' ≤ c ∧ c ≤ 'Z')

def isDigit (c : Char) : Bool := '0' ≤ c ∧ c ≤ '9'

/-- A name begins with a letter and goes on with letters, digits and `_` (log 14). -/
def parseName : List Char → Option Name
  | [] => none
  | c :: cs => if isLetter c && cs.all (fun d => isLetter d || isDigit d || d = '_') then some (c :: cs) else none

def parseOperand (t : List Char) : Option Operand :=
  match parseLiteral t with
  | some n => some (.lit n)
  | none => (parseName t).map .var

def isSpace (c : Char) : Bool := c = ' ' || c = '\t'

/-- The text without the blanks at its two ends. -/
def trimBlanks (t : List Char) : List Char := ((t.dropWhile isSpace).reverse.dropWhile isSpace).reverse

/-- The pieces of a text between the separators. -/
def splitBy (sep : Char) : List Char → List (List Char)
  | [] => [[]]
  | c :: cs =>
    if c = sep then [] :: splitBy sep cs
    else
      match splitBy sep cs with
      | [] => [[c]]
      | p :: ps => (c :: p) :: ps

/-- The text before the first `->`, and the text after it if there is one. -/
def splitArrow : List Char → List Char × Option (List Char)
  | [] => ([], none)
  | '-' :: '>' :: cs => ([], some cs)
  | c :: cs => (c :: (splitArrow cs).1, (splitArrow cs).2)

/-- Every mnemonic is written in lower case (R53, R58, R60). -/
def mnemonicTable : List (List Char × AsmOp) :=
  [("ilv".toList, .ilv), ("dilv".toList, .dilv), ("gray".toList, .gray), ("pscan".toList, .pscan),
   ("hdec".toList, .hdec), ("henc".toList, .henc), ("interleave".toList, .interleave),
   ("deinterleave".toList, .deinterleave), ("grayenc".toList, .grayenc), ("graydec".toList, .graydec),
   ("hdec64".toList, .hdec64)]

def parseMnemonic (t : List Char) : Except AsmRefusal AsmOp :=
  match mnemonicTable.find? (fun row => row.1 == t) with
  | some row => .ok row.2
  | none => .error .unknownMnemonic

def parseNames : Option (List Char) → Except AsmRefusal (List Name)
  | none => .ok []
  | some t =>
    match ((splitBy ',' t).map trimBlanks).mapM parseName with
    | some names => if wfNameCount names.length then .ok names else .error .badNames
    | none => .error .badNames

def parseOperands (t : List Char) : Except AsmRefusal (Operand × Option Operand) :=
  match (splitBy ',' t).map trimBlanks with
  | [[]] => .error .operandCount
  | [x] =>
    match parseOperand x with
    | some o => .ok (o, none)
    | none => .error .badOperand
  | [x, y] =>
    match parseOperand x, parseOperand y with
    | some o, some p => .ok (o, some p)
    | _, _ => .error .badOperand
  | _ => .error .operandCount

/-- A line of text (R58); `;` begins a comment. -/
def parseLine (t : List Char) : Except AsmRefusal AsmLine := do
  let parts := splitArrow (t.takeWhile (· ≠ ';'))
  let lhs := trimBlanks parts.1
  let op ← parseMnemonic (lhs.takeWhile (fun c => !isSpace c))
  let ops ← parseOperands (lhs.dropWhile (fun c => !isSpace c))
  let names ← parseNames parts.2
  pure { op := op, opA := ops.1, opB := ops.2, names := names }

/-! ### Assembling -/

/-- The host's variables, the latest binding first.  DESIGN CHOICE (log 15): a name that is bound
again has its latest value. -/
abbrev HostEnv := List (Name × Nat)

def operandValue (env : HostEnv) : Operand → Except AsmRefusal Nat
  | .lit n => .ok n
  | .var x =>
    match env.find? (fun row => row.1 == x) with
    | some row => .ok row.2
    | none => .error .unboundVariable

/-- An operand field of 32 bits; a wider operand is refused (R59). -/
def wordOf (env : HostEnv) (o : Operand) : Except AsmRefusal Word := do
  let n ← operandValue env o
  if wfOperand n then pure (BitVec.ofNat 32 n) else .error .operandTooWide

/-- The 64-bit operand of `hdec64` (R60).  DESIGN CHOICE (log 15): a wider one is refused, as R59
refuses an operand above 32 bits. -/
def indexOperandOf (env : HostEnv) (o : Operand) : Except AsmRefusal Index := do
  let n ← operandValue env o
  if wfIndexOperand n then pure (BitVec.ofNat 64 n) else .error .operandTooWide

/-- "An omitted `<opB>` assembles as B = 0" (R58). -/
def wordOfOptional (env : HostEnv) : Option Operand → Except AsmRefusal Word
  | none => .ok 0
  | some o => wordOf env o

/-- A line with a mnemonic of R53. -/
def assembleCore (env : HostEnv) (build : Word → Word → Instr) (opA : Operand) (opB : Option Operand) :
    Except AsmRefusal Instr := do
  let a ← wordOf env opA
  let b ← wordOfOptional env opB
  pure (build b a)

/-- A pseudo-instruction of R60 with the one operand R60 gives it. -/
def assembleOne (env : HostEnv) (build : Word → Word → Instr) (opA : Operand) :
    Option Operand → Except AsmRefusal Instr
  | none => assembleCore env build opA none
  | some _ => .error .operandCount

/-- `hdec64 n` is `hdec n[31:0], n[63:32]` (R60). -/
def assembleHdec64 (env : HostEnv) (opA : Operand) : Option Operand → Except AsmRefusal Instr
  | none => do
    let n ← indexOperandOf env opA
    pure (.hdec (indexHi n) (indexLo n))
  | some _ => .error .operandCount

/-- The request of a line (R58, R60); each line is exactly one request. -/
def assemble (env : HostEnv) (l : AsmLine) : Except AsmRefusal Instr :=
  match l.op with
  | .ilv => assembleCore env .ilv l.opA l.opB
  | .dilv => assembleCore env .dilv l.opA l.opB
  | .gray => assembleCore env .gray l.opA l.opB
  | .pscan => assembleCore env .pscan l.opA l.opB
  | .hdec => assembleCore env .hdec l.opA l.opB
  | .henc => assembleCore env .henc l.opA l.opB
  | .interleave => assembleOne env .ilv l.opA l.opB
  | .deinterleave => assembleOne env .dilv l.opA l.opB
  | .grayenc => assembleOne env .gray l.opA l.opB
  | .graydec => assembleOne env .pscan l.opA l.opB
  | .hdec64 => assembleHdec64 env l.opA l.opB

/-- The request word of a line of text (R58, R61). -/
def assembleText (t : List Char) : Except AsmRefusal ReqWord := do
  let l ← parseLine t
  let i ← assemble [] l
  pure (encode i)

/-! ### Host variables -/

/-- The values that the names after `->` take, in the order R0, R1, F64 (R58). -/
def portValues (r : Response) : List Nat := [r.r0.toNat, r.r1.toNat] ++ (r.f64.map (·.toNat)).toList

/-- `henc x, y -> n64` binds one name to {hi, lo} (R60); otherwise the names take R0, R1 and F64 in
that order (R58).  DESIGN CHOICE (log 15): one name after `henc` is always R60's n64, and the names
lo and hi of R60's expansion stay unbound: the line binds n64 only; a name written twice
after one arrow takes the later field (`-> a, a` binds a to R1), hence the reversed order. -/
def bindResults (env : HostEnv) (l : AsmLine) (r : Response) : Except AsmRefusal HostEnv :=
  match l.op, l.names with
  | .henc, [n64] => .ok ((n64, (indexOf r.r0 r.r1).toNat) :: env)
  | _, names =>
    if names.length ≤ (portValues r).length then .ok ((names.zip (portValues r)).reverse ++ env)
    else .error .noF64Port

/-- A host that issues the lines one after the other, each once it has captured the response before
it (R24, R148; log 16): its variables at the end, and the responses in order. -/
def runLines (hasF64 : Bool) : HostEnv → List AsmLine → Except AsmRefusal (HostEnv × List Response)
  | env, [] => .ok (env, [])
  | env, l :: ls => do
    let i ← assemble env l
    let env' ← bindResults env l (respond hasF64 i)
    let rest ← runLines hasF64 env' ls
    pure (rest.1, respond hasF64 i :: rest.2)

/-- The same from the text of a program. -/
def runText (hasF64 : Bool) (text : List (List Char)) : Except AsmRefusal (HostEnv × List Response) := do
  let ls ← text.mapM parseLine
  runLines hasF64 [] ls

end Sys2Proof.Machine
end

