-- ==== Sys2Proof/Safety.lean ====
section
/-! DEFINITION. What counts as a safe run, in the terms claims use: no response with ERR = 1
(R123) and no reset while a request is in flight (R151). -/

namespace Sys2Proof.Machine

/-- `k` clock cycles, stopping at the first fault or refusal. -/
def run : Nat → State → Host.Outcome State Fault Refusal
  | 0, s => .next s
  | k + 1, s =>
    match step s with
    | .next t => run k t
    | .fault r => .fault r
    | .refused r => .refused r

/-- What the response ports present in the cycle just run: nothing while `out_valid = 0`, where
the fields mean nothing (R146). -/
def State.presented (s : State) : Option Response := if s.outValid then some s.out else none

/-- What the host drives `t` cycles from now (log 6). -/
def State.portsAt (s : State) (t : Nat) : Cycle := s.inputs.getD t Cycle.idle

/-- Some slot of the delay line holds a request that waits for its response (R29). -/
def State.inFlight (s : State) : Bool := s.line.any (·.valid)

/-- The coming cycle resets HCORE while a request is in flight (R151).  A request whose response
that very cycle presents counts as in flight too (log 19). -/
def State.resetInFlight (s : State) : Bool := s.inFlight && s.ports.rst

/-- A run of `k` cycles that meets both premises: no reserved opcode accepted (R123) and no reset
in flight (R151). -/
def safeFor : Nat → State → Bool
  | 0, s => !s.faultMark
  | k + 1, s =>
    !s.faultMark && !s.resetInFlight &&
      match step s with
      | .next t => safeFor k t
      | .fault _ => false
      | .refused _ => false

/-- A response with ERR = 1 carries zeros (R121), and the fault mark is set while it is there (R123). -/
def Response.ok (hasF64 faultMark : Bool) (r : Response) : Prop :=
  r.err = true → r = { r0 := 0, r1 := 0, f64 := if hasF64 then some 0 else none, err := true } ∧
    faultMark = true

/-- What every step keeps: the F64 field exists in every response exactly as the build says (R9,
R22), and every response in flight or on the ports is as R121 and R123 say. -/
structure State.Inv (s : State) : Prop where
  /-- Every slot has the F64 field exactly when the build does. -/
  line_f64 : ∀ v ∈ s.line, v.data.f64.isSome = s.hasF64
  /-- So have the response ports. -/
  out_f64 : s.out.f64.isSome = s.hasF64
  /-- Every response in flight is as R121 and R123 say. -/
  line_ok : ∀ v ∈ s.line, v.valid = true → v.data.ok s.hasF64 s.faultMark
  /-- So is a response that is presented. -/
  out_ok : s.outValid = true → s.out.ok s.hasF64 s.faultMark

end Sys2Proof.Machine
end

