-- ==== Sys2Proof/Certificates/Slice0/Obligations.lean ====
section
/-! DEFINITION. The statements for the provers, from the numbered rules of `spec/`, and the closed
forms and comparisons they are stated with. -/

namespace Sys2Proof.Claims

open Sys2Proof.Machine

/-- `p 31 ^ p 30 ^ ... ^ p i`: "the cumulative parity of all bits at or above each position" (R75). -/
def parityFrom (p : Nat → Bool) (i : Nat) : Bool :=
  (List.range (32 - i)).foldr (fun k acc => p (i + k) ^^ acc) false

/-- `exec` answers a next state in which the request just accepted has the response `r`. -/
def Answers (i : Instr) (s : State) (r : Response) : Prop :=
  ∃ t, exec i s = .next t ∧ t.newest = { valid := true, data := r }

/-- The zero fields of a single-result operation: R1 = 0, F64 = 0 where the port exists, ERR = 0 (R52). -/
def ZeroFill (s : State) (r : Response) : Prop :=
  r.r1 = 0 ∧ r.f64 = (if s.hasF64 then some 0 else none) ∧ r.err = false

/-- From `s` to `t` the delay line moves on by one slot: slot `LATENCY` is presented, and every
other slot stands one place further (R29, R144). -/
def LineMoves (s t : State) : Prop :=
  t.latency = s.latency ∧
  ∀ older last, s.line = older ++ [last] →
    t.line.tail = older ∧ t.outValid = last.valid ∧ (last.valid = true → t.out = last.data)

/-- `|a - b|` of two unsigned words. -/
def distance (a b : Word) : Nat := max a.toNat b.toNat - min a.toNat b.toNat

/-- The error of the finite double `v` as an approximation of `n`, in units of 2^-1074 (R43). -/
def floatError (n : Nat) (v : Double) : Nat := ((n : Int) * 2 ^ 1074 - f64Scaled v).natAbs

end Sys2Proof.Claims

open Sys2Proof Sys2Proof.Machine Sys2Proof.Claims

/-! ### Encoding -/

/-- R61: the worked encodings, from assembly text to request word to operation. -/
def Obligations.WorkedEncodingsAssembleAndDecode : Prop :=
  (assembleText "ilv 0x1234".toList = .ok 0x00000000000001234#67 ∧
    decode 0x00000000000001234#67 = .ilv 0 0x1234) ∧
  (assembleText "dilv 0x55555555".toList = .ok 0x10000000055555555#67 ∧
    decode 0x10000000055555555#67 = .dilv 0 0x55555555) ∧
  (assembleText "gray 0x12345678".toList = .ok 0x20000000012345678#67 ∧
    decode 0x20000000012345678#67 = .gray 0 0x12345678) ∧
  (assembleText "graydec 0x1B2E7D44".toList = .ok 0x3000000001B2E7D44#67 ∧
    decode 0x3000000001B2E7D44#67 = .pscan 0 0x1B2E7D44) ∧
  (assembleText "hdec64 0x0123456789ABCDEF".toList = .ok 0x40123456789ABCDEF#67 ∧
    decode 0x40123456789ABCDEF#67 = .hdec 0x01234567 0x89ABCDEF) ∧
  (assembleText "henc 5, 3".toList = .ok 0x50000000300000005#67 ∧
    decode 0x50000000300000005#67 = .henc 3 5) ∧
  ∀ b a : Word, decode (packReq 6#3 b a) = .reserved6 b a

/-- R57, first half: every instruction's request word decodes to it, through the decoder on numbers
and in the opcode table's numbering (log 13), with every operand bit kept. -/
def Obligations.DecodeOfEncode : Prop :=
  ∀ i : Instr, decode (encode i) = i ∧ decodeNat (encode i).toNat = .ok i ∧
    decodeTableWord 72 (encode i).toNat = some i

/-- R57: the decoder is total on every 67-bit word; `REQ[66:64]` alone selects the operation, and
no bit of the word is lost. -/
def Obligations.EncodeOfDecode : Prop :=
  ∀ w : ReqWord, encode (decode w) = w ∧ (decode w).opcode = w.extractLsb' 64 3 ∧
    (decode w).portB = w.extractLsb' 32 32 ∧ (decode w).portA = w.extractLsb' 0 32 ∧
    ((decode w).isReserved = true ↔ 6 ≤ (w.extractLsb' 64 3).toNat)

/-- R51: the packed response: its fields stand at the bits the rule names, and unpacking gives the
response back, in both builds. -/
def Obligations.PackedResponseRoundTrip : Prop :=
  (∀ (r : Response) (f : Double), r.f64 = some f →
    r.pack.getLsbD 128 = r.err ∧ r.pack.extractLsb' 64 64 = f ∧ r.pack.extractLsb' 32 32 = r.r1 ∧
      r.pack.extractLsb' 0 32 = r.r0 ∧ Response.unpack true r.pack = r) ∧
  (∀ r : Response, r.f64 = none →
    r.packNoF64.getLsbD 64 = r.err ∧ r.packNoF64.extractLsb' 32 32 = r.r1 ∧
      r.packNoF64.extractLsb' 0 32 = r.r0 ∧ Response.unpackNoF64 r.packNoF64 = r)

/-- R41: n = hi * 2^32 + lo; its halves are the two words; `hdec` takes lo in A and hi
in B, and `henc` gives lo in R0 and hi in R1. -/
def Obligations.IndexIsHighThenLow : Prop :=
  ∀ lo hi : Word, (indexOf lo hi).toNat = hi.toNat * 2 ^ 32 + lo.toNat ∧
    indexLo (indexOf lo hi) = lo ∧ indexHi (indexOf lo hi) = hi ∧
    (∀ f, (respond f (.hdec hi lo)).r0 = (hdecIndex (indexOf lo hi)).1 ∧
      (respond f (.hdec hi lo)).r1 = (hdecIndex (indexOf lo hi)).2) ∧
    ∀ (f : Bool) (x y : Word), hencFn x y = (lo, hi) →
      indexOf (respond f (.henc y x)).r0 (respond f (.henc y x)).r1 = indexOf lo hi

/-! ### The bit primitives: result and completion -/

/-- R70: for every i in 0..15, R0[2i] = A[i] and R0[2i+1] = 0; R1 = F64 = ERR = 0. -/
def Obligations.InterleaveSpreadsBits : Prop :=
  ∀ (b a : Word) (s : State), decode (packReq 0#3 b a) = .ilv b a ∧
    ∃ r, Answers (.ilv b a) s r ∧ ZeroFill s r ∧
      ∀ i < 16, r.r0.getLsbD (2 * i) = a.getLsbD i ∧ r.r0.getLsbD (2 * i + 1) = false

/-- R72: for every i in 0..15, R0[i] = A[2i], and R0[31:16] = 0; R1 = F64 = ERR = 0. -/
def Obligations.DeinterleavePacksEvenBits : Prop :=
  ∀ (b a : Word) (s : State), decode (packReq 1#3 b a) = .dilv b a ∧
    ∃ r, Answers (.dilv b a) s r ∧ ZeroFill s r ∧
      (∀ i < 16, r.r0.getLsbD i = a.getLsbD (2 * i)) ∧ ∀ i, 16 ≤ i → r.r0.getLsbD i = false

/-- R74: R0[31] = A[31] and R0[i] = A[i] ^ A[i+1] for i in 0..30; R1 = F64 = ERR = 0. -/
def Obligations.GrayCodeXorsNeighbours : Prop :=
  ∀ (b a : Word) (s : State), decode (packReq 2#3 b a) = .gray b a ∧
    ∃ r, Answers (.gray b a) s r ∧ ZeroFill s r ∧
      r.r0.getLsbD 31 = a.getLsbD 31 ∧
      ∀ i < 31, r.r0.getLsbD i = (a.getLsbD i ^^ a.getLsbD (i + 1))

/-- R75: R0[i] = A[31] ^ ... ^ A[i] for every i in 0..31; R1 = F64 = ERR = 0. -/
def Obligations.PrefixScanIsParityFromAbove : Prop :=
  ∀ (b a : Word) (s : State), decode (packReq 3#3 b a) = .pscan b a ∧
    ∃ r, Answers (.pscan b a) s r ∧ ZeroFill s r ∧
      ∀ i < 32, r.r0.getLsbD i = parityFrom (fun j => a.getLsbD j) i

/-- R55: requests that differ only in ignored bits are the same operation. -/
def Obligations.IgnoredOperandBitsHaveNoEffect : Prop :=
  ∀ (b b' a a' : Word) (s : State),
    (a.extractLsb' 0 16 = a'.extractLsb' 0 16 → exec (.ilv b a) s = exec (.ilv b' a') s) ∧
    exec (.dilv b a) s = exec (.dilv b' a) s ∧
    exec (.gray b a) s = exec (.gray b' a) s ∧
    exec (.pscan b a) s = exec (.pscan b' a) s

/-! ### The bit primitives: laws -/

/-- R71: ILV16 is injective, its image is the words with every odd-indexed bit zero, and it
distributes over OR and AND. -/
def Obligations.InterleaveLaws : Prop :=
  (∀ p q : Half, ilv16 p = ilv16 q → p = q) ∧
  (∀ w : Word, (∃ t, ilv16 t = w) ↔ ∀ i < 16, w.getLsbD (2 * i + 1) = false) ∧
  (∀ p q : Half, ilv16 p ||| ilv16 q = ilv16 (p ||| q)) ∧
  ∀ p q : Half, ilv16 p &&& ilv16 q = ilv16 (p &&& q)

/-- R73: Deinterleave undoes Interleave, and Interleave after Deinterleave keeps the even bits. -/
def Obligations.DeinterleaveInvertsInterleave : Prop :=
  (∀ t : Half, dilv16 (ilv16 t) = t) ∧ ∀ v : Word, ilv16 (dilv16 v) = v &&& 0x55555555#32

/-- R77: GrayCode and PrefixScan are inverse, so GRAY32 is a bijection. -/
def Obligations.PrefixScanInvertsGrayCode : Prop :=
  (∀ t : Word, pscan32 (gray32 t) = t) ∧ (∀ t : Word, gray32 (pscan32 t) = t) ∧
    Function.Bijective gray32

/-- R76: the order of the five PrefixScan steps does not change the result. -/
def Obligations.PrefixScanStepsCommute : Prop :=
  ∀ (ks : List Nat) (v : Word), ks.Perm [1, 2, 4, 8, 16] → ks.foldl pscanStep v = pscan32 v

/-- R16 (*Gray code*): consecutive integers differ in exactly one bit, also around the wrap. -/
def Obligations.GrayCodeChangesOneBit : Prop :=
  ∀ v : Word, ∃ i < 32, gray32 v ^^^ gray32 (v + 1) = BitVec.twoPow 32 i

/-! ### The curve: result and completion -/

/-- R90, R91, R100: with n = {B, A}, odd[j] = n[2j] and even[j] = n[2j+1]; bit j of x is
`(odd & P0) ^ (~odd & P3) ^ even`, where P0 and P3 are the parities of the positions from j up at
which both planes are 0, and both are 1; y = x ^ odd; F64 = 0 and ERR = 0. -/
def Obligations.CurveDecodeBits : Prop :=
  ∀ (hi lo : Word) (s : State), decode (packReq 4#3 hi lo) = .hdec hi lo ∧
    ∃ r, Answers (.hdec hi lo) s r ∧ r.f64 = (if s.hasF64 then some 0 else none) ∧ r.err = false ∧
      ∀ j < 32,
        let odd := fun k => (indexOf lo hi).getLsbD (2 * k)
        let even := fun k => (indexOf lo hi).getLsbD (2 * k + 1)
        r.r0.getLsbD j = (((odd j && parityFrom (fun k => !(odd k || even k)) j) ^^
          (!odd j && parityFrom (fun k => odd k && even k) j)) ^^ even j) ∧
        r.r1.getLsbD j = (r.r0.getLsbD j ^^ odd j)

/-- R93, R101: `henc` completes with the unique index whose CurveDecode is (x, y), and with its
float where the port exists; ERR = 0. -/
def Obligations.CurveEncodeInvertsCurveDecode : Prop :=
  ∀ (y x : Word) (s : State), decode (packReq 5#3 y x) = .henc y x ∧
    ∃ r, Answers (.henc y x) s r ∧ hdecFn r.r0 r.r1 = (x, y) ∧
      (∀ lo hi : Word, hdecFn lo hi = (x, y) → lo = r.r0 ∧ hi = r.r1) ∧
      r.f64 = (if s.hasF64 then some (f64val r.r0 r.r1) else none) ∧ r.err = false

/-! ### The curve: laws -/

/-- R90, R92: the planes of CurveDecode are the index bits; the first XOR of step 2 may be read as
OR; and odd = x ^ y. -/
def Obligations.CurveDecodePlanes : Prop :=
  ∀ lo hi : Word,
    (∀ j < 32, (oddPlane lo hi).getLsbD j = (indexOf lo hi).getLsbD (2 * j) ∧
      (evenPlane lo hi).getLsbD j = (indexOf lo hi).getLsbD (2 * j + 1)) ∧
    (∀ odd even : Word, hdecX odd even =
      ((odd &&& pscan32 (~~~(odd ||| even))) ||| (~~~odd &&& pscan32 (odd &&& even))) ^^^ even) ∧
    oddPlane lo hi = (hdecFn lo hi).1 ^^^ (hdecFn lo hi).2

/-- R98: `ILV16(e) * 2 + ILV16(o)` never carries: it is `<< 1 |`, and it puts o at the even and e
at the odd positions. -/
def Obligations.PackingNeverCarries : Prop :=
  ∀ e o : Half, packHalf e o = (ilv16 e <<< 1 ||| ilv16 o) ∧
    ∀ i < 16, (packHalf e o).getLsbD (2 * i) = o.getLsbD i ∧
      (packHalf e o).getLsbD (2 * i + 1) = e.getLsbD i

/-- R102: HENC and HDEC are mutually inverse on all coordinates and all indices. -/
def Obligations.CurveTransformsAreInverse : Prop :=
  (∀ x y : Word, hdecFn (hencFn x y).1 (hencFn x y).2 = (x, y)) ∧
    ∀ lo hi : Word, hencFn (hdecFn lo hi).1 (hdecFn lo hi).2 = (lo, hi)

/-- R103: the origin fixpoint, as `henc` and `hdec` of any state answer it. -/
def Obligations.OriginIsFixed : Prop :=
  hencFn 0 0 = (0, 0) ∧ hdecFn 0 0 = (0, 0) ∧
  ∀ s : State, Answers (.henc 0 0) s { r0 := 0, r1 := 0, f64 := if s.hasF64 then some 0 else none, err := false } ∧
    Answers (.hdec 0 0) s { r0 := 0, r1 := 0, f64 := if s.hasF64 then some 0 else none, err := false }

/-- R104, for every index that has a successor (the spec checked it below 2^20 only): consecutive
cells are at Chebyshev distance 1, and share an edge. -/
def Obligations.CurveIsLocal : Prop :=
  ∀ n : Index, n.toNat < 2 ^ 64 - 1 →
    let p := hdecIndex n
    let q := hdecIndex (n + 1)
    max (distance p.1 q.1) (distance p.2 q.2) = 1 ∧ distance p.1 q.1 + distance p.2 q.2 = 1

/-- R105: the first sixteen cells, the two ends, and the four quarters in index order. -/
def Obligations.CurveOrientation : Prop :=
  (List.range 16).map (fun n => hdecIndex (BitVec.ofNat 64 n)) =
    [(0, 0), (1, 0), (1, 1), (0, 1), (0, 2), (0, 3), (1, 3), (1, 2),
     (2, 2), (2, 3), (3, 3), (3, 2), (3, 1), (2, 1), (2, 0), (3, 0)] ∧
  hdecIndex 0 = (0, 0) ∧ hdecIndex (BitVec.allOnes 64) = (0xFFFFFFFF, 0) ∧
  ∀ n : Index,
    let x := (hdecIndex n).1.toNat
    let y := (hdecIndex n).2.toNat
    (n.toNat < 2 ^ 62 ↔ x < 2 ^ 31 ∧ y < 2 ^ 31) ∧
    (2 ^ 62 ≤ n.toNat ∧ n.toNat < 2 ^ 63 ↔ x < 2 ^ 31 ∧ 2 ^ 31 ≤ y) ∧
    (2 ^ 63 ≤ n.toNat ∧ n.toNat < 3 * 2 ^ 62 ↔ 2 ^ 31 ≤ x ∧ 2 ^ 31 ≤ y) ∧
    (3 * 2 ^ 62 ≤ n.toNat ↔ 2 ^ 31 ≤ x ∧ y < 2 ^ 31)

/-- R106: for every k up to 32 the first 4^k indices are the square of side 2^k, one to one, and
end in the corner the rule names (the spec checked k up to 10 only). -/
def Obligations.SubSquares : Prop :=
  ∀ k ≤ 32,
    (∀ n : Index, n.toNat < 4 ^ k → (hdecIndex n).1.toNat < 2 ^ k ∧ (hdecIndex n).2.toNat < 2 ^ k) ∧
    (∀ x y : Word, x.toNat < 2 ^ k → y.toNat < 2 ^ k →
      ∃! n : Index, n.toNat < 4 ^ k ∧ hdecIndex n = (x, y)) ∧
    hdecIndex (BitVec.ofNat 64 (4 ^ k - 1)) =
      if k % 2 = 0 then (BitVec.ofNat 32 (2 ^ k - 1), 0) else (0, BitVec.ofNat 32 (2 ^ k - 1))

/-- D10, R102: the response to `henc` feeds an `hdec` request unchanged and gives the coordinates
back, and the other way round. -/
def Obligations.ResponseFeedsTheInverseRequest : Prop :=
  ∀ (f : Bool) (p q : Word),
    (let r := transact f (packReq 5#3 q p)
     let u := transact f (packReq 4#3 r.r1 r.r0)
     u.r0 = p ∧ u.r1 = q) ∧
    (let r := transact f (packReq 4#3 q p)
     let u := transact f (packReq 5#3 r.r1 r.r0)
     u.r0 = p ∧ u.r1 = q)

/-! ### The float -/

/-- R99: F64VAL is a finite, non-negative double; no double is nearer to n; where another is as
near, its own fraction is even; it is 0 only for n = 0 and never subnormal; it is exact for every
n up to 2^53 and, above, exactly where the set bits of n span at most 53 positions; the largest
result is 2^64. -/
def Obligations.FloatRoundsToNearestEven : Prop :=
  (∀ lo hi : Word,
    let n := hi.toNat * 2 ^ 32 + lo.toNat
    let v := f64val lo hi
    f64Finite v = true ∧ f64Sign v = false ∧
    (f64Exponent v = 0 → n = 0 ∧ v = 0) ∧
    (∀ w : Double, f64Finite w = true → floatError n v ≤ floatError n w) ∧
    (∀ w : Double, f64Finite w = true → w ≠ v → floatError n w = floatError n v →
      f64Fraction v % 2 = 0) ∧
    (n ≤ 2 ^ 53 → floatError n v = 0) ∧
    (floatError n v = 0 ↔ ∃ m e, m < 2 ^ 53 ∧ n = m * 2 ^ e) ∧
    f64Scaled v ≤ 2 ^ 64 * 2 ^ 1074) ∧
  f64val 0 0 = 0 ∧ f64val 0xFFFFFFFF 0xFFFFFFFF = 0x43F0000000000000

/-! ### The reserved opcodes and ERR -/

/-- R54, R121: a reserved opcode answers ERR = 1 and zeros, at its place in the delay line, and has
no other effect on the block.  The clause `t.faultMark = true` is no part of those rules: that the
mark of R123 is set already in the cycle that accepts the request is the model's choice (log 9). -/
def Obligations.ReservedOpcodesAnswerIllegalOp : Prop :=
  ∀ (b a : Word) (s : State), decode (packReq 6#3 b a) = .reserved6 b a ∧
    decode (packReq 7#3 b a) = .reserved7 b a ∧
    ∀ i ∈ [Instr.reserved6 b a, Instr.reserved7 b a], ∃ t, exec i s = .next t ∧
      t.newest = { valid := true,
                   data := { r0 := 0, r1 := 0, f64 := if s.hasF64 then some 0 else none, err := true } } ∧
      t.faultMark = true ∧ t.hasF64 = s.hasF64 ∧ t.inputs = s.inputs ∧ LineMoves s t

/-- R25, R120: every request completes, with ERR = 1 exactly for OP 6 and 7. -/
def Obligations.ErrExactlyForReservedOpcodes : Prop :=
  ∀ (i : Instr) (s : State), ∃ r, Answers i s r ∧ (r.err = true ↔ 6 ≤ i.opcode.toNat)

/-! ### Frames and the clock cycle -/

/-- The frame of the six defined operations: the delay line moves on by one, and nothing else
changes but the response ports: not the build, the schedule or the fault mark (R20, R26, R30). -/
def Obligations.DefinedOperationsFrame : Prop :=
  ∀ (b a : Word) (s : State),
    ∀ i ∈ [Instr.ilv b a, .dilv b a, .gray b a, .pscan b a, .hdec b a, .henc b a],
      ∃ t, exec i s = .next t ∧ t.hasF64 = s.hasF64 ∧ t.inputs = s.inputs ∧
        t.faultMark = s.faultMark ∧ LineMoves s t ∧ (s.latency = 0 → t.outValid = true)

/-- A step runs the decoded request: an accepted request word is executed on the state whose
schedule stands one cycle further (R21, R143).  Model's choices: that a request beside `rst = 1` is
accepted where `LATENCY = 0`, where R143 read alone asks for `rst = 0` (log 8); and the whole second
clause, since the schedule and `withFetchWord` are the model's form of the ports (log 6). -/
def Obligations.StepRunsTheDecodedRequest : Prop :=
  (∀ s : State, s.ports.inValid = true → (s.ports.rst = false ∨ s.latency = 0) →
    step s = exec (decode s.ports.word) { s with inputs := s.inputs.tail }) ∧
  ∀ (s : State) (i : Instr),
    step (s.withFetchWord 72 (encode i).toNat) = exec i { s with inputs := s.inputs.tail }

/-- R143: a cycle with `in_valid = 0` issues no operation: an empty slot enters, the others move on,
and the fault mark stays. -/
def Obligations.IdleCycleIssuesNothing : Prop :=
  ∀ s : State, s.ports.inValid = false → s.ports.rst = false →
    ∃ t, step s = .next t ∧ t.newest.valid = false ∧ t.faultMark = s.faultMark ∧
      t.hasF64 = s.hasF64 ∧ t.inputs = s.inputs.tail ∧ LineMoves s t

/-- R120: no step stops: every cycle of every state has a next state, and uses up one cycle of the
host's schedule. -/
def Obligations.EveryCycleCompletes : Prop :=
  ∀ (k : Nat) (s : State), ∃ t, run k s = .next t ∧ t.inputs = s.inputs.drop k

/-- R26: `LATENCY` and `HAS_F64` cannot be written at run time. -/
def Obligations.BuildParametersNeverChange : Prop :=
  ∀ (k : Nat) (s t : State), run k s = .next t → t.latency = s.latency ∧ t.hasF64 = s.hasF64

/-- R123: the fault mark is set by an accepted reserved opcode, which gets its ILLEGAL_OP response
as a normal outcome, and is cleared by nothing.  Model's choices: that the accepting cycle sets the
mark, before the response is presented (log 9); and that a request beside `rst = 1` counts as
accepted where `LATENCY = 0` (log 8). -/
def Obligations.FaultMarkRecordsReservedOpcodes : Prop :=
  ∀ s : State, ∃ t, step s = .next t ∧
    (t.faultMark = true ↔ s.faultMark = true ∨ (s.cycleKind = .request ∧ 6 ≤ s.ports.op.toNat)) ∧
    (s.cycleKind = .request → 6 ≤ s.ports.op.toNat →
      t.newest = { valid := true,
                   data := { r0 := 0, r1 := 0, f64 := if s.hasF64 then some 0 else none, err := true } })

/-! ### Reset -/

/-- R31: the valid bits and `out_valid` are 0 after reset, for every build. -/
def Obligations.ResetLeavesNothingValid : Prop :=
  ∀ (latency : Nat) (f : Bool),
    (State.resetFor latency f).latency = latency ∧ (State.resetFor latency f).hasF64 = f ∧
    (∀ v ∈ (State.resetFor latency f).line, v.valid = false) ∧
    (State.resetFor latency f).outValid = false

/-- R140: where `LATENCY ≥ 1`, a cycle with `rst = 1` clears every valid bit and accepts no
request, and in the next `LATENCY` cycles nothing is presented, whatever the host drives: the
requests of slots 1 to `LATENCY - 1` never get their responses.  It says nothing of slot `LATENCY`,
whose response the model presents in the reset cycle itself (log 7), although log 19 counts that
slot as in flight.  Where `LATENCY = 0`, `rst` has no effect: the model's choice, log 8. -/
def Obligations.NothingIsPresentedAfterReset : Prop :=
  (∀ s : State, 0 < s.latency → s.ports.rst = true →
    ∃ t, step s = .next t ∧ (∀ v ∈ t.line, v.valid = false) ∧ t.latency = s.latency ∧
      t.hasF64 = s.hasF64 ∧ t.faultMark = s.faultMark ∧ t.inputs = s.inputs.tail ∧
      ∀ j < s.latency, ∃ u, run (j + 1) t = .next u ∧ u.outValid = false) ∧
  ∀ s : State, s.latency = 0 →
    step s = step { s with inputs := { s.ports with rst := false } :: s.inputs.tail }

/-- R141, R142: a reset cycle makes what was before unobservable: two pipelined machines of one
build with the same schedule present the same from the cycle after a reset on, whatever they held. -/
def Obligations.ResetForgetsTheHistory : Prop :=
  ∀ s s' : State, s.latency = s'.latency → s.hasF64 = s'.hasF64 → s.inputs = s'.inputs →
    0 < s.latency → s.ports.rst = true →
    ∀ k, ∃ u u', run (k + 2) s = .next u ∧ run (k + 2) s' = .next u' ∧ u.presented = u'.presented

/-- R23, R144, R147: with `LATENCY = 0` the response is a function of the same cycle's request, and
`out_valid = in_valid`.  That this holds beside `rst = 1` too is the model's choice (log 8). -/
def Obligations.CombinationalBuildAnswersAtOnce : Prop :=
  ∀ s : State, s.latency = 0 → ∃ t, step s = .next t ∧ t.outValid = s.ports.inValid ∧
    (s.ports.inValid = true → t.out = transact s.hasF64 s.ports.word)

/-! ### Whole runs -/

/-- R144, R45: what cycle t + `LATENCY` presents is the response to the request of cycle t, or
nothing where cycle t issued none, if no reset comes from cycle t to cycle t + `LATENCY`: one
response per request, in order, for every build, state and schedule. -/
def Obligations.ResponseComesAfterLatency : Prop :=
  ∀ (s : State) (t : Nat), (∀ j ≤ s.latency, (s.portsAt (t + j)).rst = false) →
    ∃ u, run (t + s.latency + 1) s = .next u ∧
      u.presented = if (s.portsAt t).inValid then some (transact s.hasF64 (s.portsAt t).word) else none

/-- The same with resets, where `LATENCY ≥ 1`: the request of cycle t gets its response exactly
when no cycle from t to t + `LATENCY` - 1 has `rst = 1` (R140, R144).  That a reset in the
presenting cycle itself does not matter is the model's reading (log 7). -/
def Obligations.ResponseComesUnlessReset : Prop :=
  ∀ (s : State) (t : Nat), 0 < s.latency →
    ∃ u, run (t + s.latency + 1) s = .next u ∧
      u.presented =
        if (s.portsAt t).inValid = true ∧ ∀ j < s.latency, (s.portsAt (t + j)).rst = false
        then some (transact s.hasF64 (s.portsAt t).word) else none

/-- R30: the response to a request depends only on OP, A, B and `HAS_F64`: two machines of any two
latencies, in any two states and at any two times, present the same response to it. -/
def Obligations.ResponsesAreStateless : Prop :=
  ∀ (s s' : State) (t t' : Nat), s.hasF64 = s'.hasF64 →
    (∀ j ≤ s.latency, (s.portsAt (t + j)).rst = false) →
    (∀ j ≤ s'.latency, (s'.portsAt (t' + j)).rst = false) →
    (s.portsAt t).inValid = true → (s'.portsAt t').inValid = true →
    (s.portsAt t).word = (s'.portsAt t').word →
    ∃ u u', run (t + s.latency + 1) s = .next u ∧ run (t' + s'.latency + 1) s' = .next u' ∧
      u.outValid = true ∧ u'.outValid = true ∧ u.out = u'.out

/-- R123, R144, R151: in a run without a reserved opcode and without a reset in flight, every
accepted request gets its response `LATENCY` cycles later, with ERR = 0.  Model's choices: which
slots the premise counts as in flight (log 19), the cycle in which the fault mark of the premise is
set (log 9), and that a request beside `rst = 1` is accepted where `LATENCY = 0` (log 8). -/
def Obligations.SafeRunAnswersEveryRequest : Prop :=
  ∀ (s : State) (t : Nat), safeFor (t + s.latency + 1) s = true →
    (s.portsAt t).inValid = true → ((s.portsAt t).rst = false ∨ s.latency = 0) →
    ∃ u, run (t + s.latency + 1) s = .next u ∧
      u.presented = some (transact s.hasF64 (s.portsAt t).word) ∧ u.out.err = false

/-- The invariant holds right after reset, in every build.  Its clauses on the F64 field of data
that is valid nowhere rest on the model's zero data at reset (log 2). -/
def Obligations.ResetMeetsTheInvariant : Prop :=
  State.reset.Inv ∧ ∀ (latency : Nat) (f : Bool), (State.resetFor latency f).Inv

/-- Every step keeps the invariant: the F64 field exists as the build says, and a response with
ERR = 1 carries zeros (R9, R22, R121).  That a response with ERR = 1 has set the fault mark (R123)
already while it is in flight is the model's choice (log 9), and so is the absent field (log 12). -/
def Obligations.StepKeepsTheInvariant : Prop :=
  ∀ s t : State, s.Inv → step s = .next t → t.Inv

/-! ### The assembler -/

/-- R60: each pseudo-instruction assembles to its expansion, and `henc x, y -> n64` binds {hi, lo}.
That every `henc` with exactly one name is this form, and not R58's `-> r0name`, and that the
names lo and hi of the expansion stay unbound, is the model's choice (log 15). -/
def Obligations.PseudoInstructionsExpand : Prop :=
  (∀ (env : HostEnv) (a : Operand) (ns : List Name),
    assemble env ⟨.interleave, a, none, ns⟩ = assemble env ⟨.ilv, a, none, ns⟩ ∧
    assemble env ⟨.deinterleave, a, none, ns⟩ = assemble env ⟨.dilv, a, none, ns⟩ ∧
    assemble env ⟨.grayenc, a, none, ns⟩ = assemble env ⟨.gray, a, none, ns⟩ ∧
    assemble env ⟨.graydec, a, none, ns⟩ = assemble env ⟨.pscan, a, none, ns⟩) ∧
  (∀ (env : HostEnv) (n : Nat) (ns : List Name), n < 2 ^ 64 →
    assemble env ⟨.hdec64, .lit n, none, ns⟩ =
      assemble env ⟨.hdec, .lit (n % 2 ^ 32), some (.lit (n / 2 ^ 32)), ns⟩) ∧
  ∀ (env : HostEnv) (x y : Operand) (n64 : Name) (r : Response),
    bindResults env ⟨.henc, x, some y, [n64]⟩ r = .ok ((n64, r.r1.toNat * 2 ^ 32 + r.r0.toNat) :: env)

/-- R58, R59: a literal that fits in 32 bits is the operand, in A and in B; an omitted second
operand is B = 0; a line with a wider literal in either place is refused.  The literal of `hdec64`
is one of 64 bits (R60); that a wider one is refused in the same way is the model's choice (log 15). -/
def Obligations.LiteralOperandsMustFit : Prop :=
  ∀ (env : HostEnv) (n m : Nat) (ns : List Name),
    (∀ row ∈ [(AsmOp.ilv, Instr.ilv), (.dilv, .dilv), (.gray, .gray), (.pscan, .pscan), (.hdec, .hdec), (.henc, .henc)],
      (assemble env ⟨row.1, .lit n, none, ns⟩ =
        if n < 2 ^ 32 then .ok (row.2 0 (BitVec.ofNat 32 n)) else .error .operandTooWide) ∧
      assemble env ⟨row.1, .lit n, some (.lit m), ns⟩ =
        if n < 2 ^ 32 ∧ m < 2 ^ 32 then .ok (row.2 (BitVec.ofNat 32 m) (BitVec.ofNat 32 n))
        else .error .operandTooWide) ∧
    assemble env ⟨.hdec64, .lit n, none, ns⟩ =
      if n < 2 ^ 64 then .ok (.hdec (BitVec.ofNat 32 (n / 2 ^ 32)) (BitVec.ofNat 32 (n % 2 ^ 32)))
      else .error .operandTooWide
end

