-- ==== Sys2Proof/Laws/Assembler.lean ====
section
/-! SUPPORT. What the assembler's operand fields take and refuse, said once (R58 to R60). -/

namespace Sys2Proof.Machine

/-- A 32-bit field takes a value that fits, and refuses a wider one (R59). -/
theorem wordOf_of_value {env : HostEnv} {o : Operand} {n : Nat} (h : operandValue env o = .ok n) :
    wordOf env o = if n < 2 ^ 32 then .ok (BitVec.ofNat 32 n) else .error .operandTooWide := by
  simp only [wordOf, h, wfOperand, bind, Except.bind, decide_eq_true_eq]
  split <;> rfl

/-- The 64-bit field of `hdec64` takes a value that fits, and refuses a wider one (R60, log 15). -/
theorem indexOperandOf_of_value {env : HostEnv} {o : Operand} {n : Nat} (h : operandValue env o = .ok n) :
    indexOperandOf env o = if n < 2 ^ 64 then .ok (BitVec.ofNat 64 n) else .error .operandTooWide := by
  simp only [indexOperandOf, h, wfIndexOperand, bind, Except.bind, decide_eq_true_eq]
  split <;> rfl

/-- A line whose operand fields are filled is the request with those fields. -/
theorem assembleCore_ok {env : HostEnv} {build : Word → Word → Instr} {oA : Operand} {oB : Option Operand}
    {a b : Word} (ha : wordOf env oA = .ok a) (hb : wordOfOptional env oB = .ok b) :
    assembleCore env build oA oB = .ok (build b a) := by
  simp only [assembleCore, ha, hb, bind, Except.bind]
  rfl

/-- A line whose first operand is refused is refused for the same reason. -/
theorem assembleCore_error_first {env : HostEnv} {build : Word → Word → Instr} {oA : Operand}
    {oB : Option Operand} {e : AsmRefusal} (ha : wordOf env oA = .error e) :
    assembleCore env build oA oB = .error e := by
  simp only [assembleCore, ha, bind, Except.bind]

/-- A line whose second operand is refused, its first one being filled, is refused for that reason. -/
theorem assembleCore_error_second {env : HostEnv} {build : Word → Word → Instr} {oA : Operand}
    {oB : Option Operand} {a : Word} {e : AsmRefusal} (ha : wordOf env oA = .ok a)
    (hb : wordOfOptional env oB = .error e) : assembleCore env build oA oB = .error e := by
  simp only [assembleCore, ha, hb, bind, Except.bind]

end Sys2Proof.Machine
end

