-- ==== Sys2Proof/Laws/Bits.lean ====
section
/-! SUPPORT. Each bit of the results of the bit primitives and of a packed index, said once, so
that no proof unfolds a mask cascade again. -/

namespace Sys2Proof.Machine

/-- Bit 2i of `ILV16` is bit i of its operand, and bit 2i+1 is 0 (R70). -/
theorem getLsbD_ilv16 (t : Half) {i : Nat} (hi : i < 16) :
    (ilv16 t).getLsbD (2 * i) = t.getLsbD i ∧ (ilv16 t).getLsbD (2 * i + 1) = false := by
  interval_cases i <;> simp [ilv16, zextHalf]

/-- Bit i of `DILV16` is bit 2i of its operand (R72). -/
theorem getLsbD_dilv16 (v : Word) {i : Nat} (hi : i < 16) : (dilv16 v).getLsbD i = v.getLsbD (2 * i) := by
  interval_cases i <;> simp [dilv16]

/-- Bit i of `GRAY32` is the XOR of bits i and i+1, where bit 32 counts as 0 (R74). -/
theorem getLsbD_gray32 (v : Word) (i : Nat) : (gray32 v).getLsbD i = (v.getLsbD i ^^ v.getLsbD (i + 1)) := by
  simp [gray32, Nat.add_comm]

/-- Bit i of `PSCAN32` is the XOR of bit i of the operand and bit i+1 of the result (R75). -/
theorem getLsbD_pscan32 (v : Word) (i : Nat) :
    (pscan32 v).getLsbD i = (v.getLsbD i ^^ (pscan32 v).getLsbD (i + 1)) := by
  by_cases hi : i < 32
  · interval_cases i <;> simp [pscan32, pscanStep]
  · simp [BitVec.getLsbD_of_ge, Nat.le_of_not_lt hi, Nat.le_succ_of_le (Nat.le_of_not_lt hi)]

/-- Each bit of the index comes from its low or its high half (R41). -/
theorem getLsbD_indexOf (lo hi : Word) (i : Nat) :
    (indexOf lo hi).getLsbD i = if i < 32 then lo.getLsbD i else hi.getLsbD (i - 32) := by
  unfold indexOf
  change BitVec.getLsbD (w := 32 + 32) (hi ++ lo) i = _
  rw [BitVec.getLsbD_append]

end Sys2Proof.Machine
end

