-- ==== Sys2Proof/Laws/Decode.lean ====
section
/-! SUPPORT. The fields of a packed request word, and which operation each opcode selects. -/

namespace Sys2Proof

/-- Each bit of a request word comes from A, from B or from OP (R50). -/
theorem getLsbD_packReq (op : Opcode) (b a : Word) (i : Nat) : (packReq op b a).getLsbD i =
    if i < 32 then a.getLsbD i else if i < 64 then b.getLsbD (i - 32) else op.getLsbD (i - 64) := by
  change BitVec.getLsbD (w := 3 + 32 + 32) (op ++ b ++ a) i = _
  rw [BitVec.getLsbD_append, BitVec.getLsbD_append]
  split
  · rfl
  · rw [Nat.sub_sub]
    congr 1
    exact propext (by omega)

@[simp] theorem reqOp_packReq (op : Opcode) (b a : Word) : reqOp (packReq op b a) = op := by
  refine BitVec.eq_of_getLsbD_eq fun i hi => ?_
  simp [reqOp, getLsbD_packReq, hi, show ¬ 64 + i < 32 by omega]

@[simp] theorem reqB_packReq (op : Opcode) (b a : Word) : reqB (packReq op b a) = b := by
  refine BitVec.eq_of_getLsbD_eq fun i hi => ?_
  simp [reqB, getLsbD_packReq, hi, show 32 + i < 64 by omega]

@[simp] theorem reqA_packReq (op : Opcode) (b a : Word) : reqA (packReq op b a) = a := by
  refine BitVec.eq_of_getLsbD_eq fun i hi => ?_
  simp [reqA, getLsbD_packReq, hi]

theorem decode_packReq (op : Opcode) (b a : Word) : decode (packReq op b a) = selectOp op b a := by
  simp [decode]

end Sys2Proof
end

