-- ==== Sys2Proof/Laws/State.lean ====
section
/-! SUPPORT. What each update of State does to each field, one lemma per field per update, so that
no later proof unfolds a record update. -/

namespace Sys2Proof.Machine

/-! ### `State.sampled` -/

@[simp] theorem State.sampled_line (s : State) : s.sampled.line = s.line := rfl
@[simp] theorem State.sampled_hasF64 (s : State) : s.sampled.hasF64 = s.hasF64 := rfl
@[simp] theorem State.sampled_inputs (s : State) : s.sampled.inputs = s.inputs.tail := rfl
@[simp] theorem State.sampled_outValid (s : State) : s.sampled.outValid = s.outValid := rfl
@[simp] theorem State.sampled_out (s : State) : s.sampled.out = s.out := rfl
@[simp] theorem State.sampled_faultMark (s : State) : s.sampled.faultMark = s.faultMark := rfl
@[simp] theorem State.sampled_draws (s : State) : s.sampled.draws = s.draws := rfl
@[simp] theorem State.sampled_latency (s : State) : s.sampled.latency = s.latency := rfl
@[simp] theorem State.sampled_leaving (s : State) (v : Slot) : s.sampled.leaving v = s.leaving v := rfl

/-! ### `State.clock` -/

@[simp] theorem State.clock_line (s : State) (v : Slot) : (s.clock v).line = (v :: s.line).dropLast := rfl
@[simp] theorem State.clock_hasF64 (s : State) (v : Slot) : (s.clock v).hasF64 = s.hasF64 := rfl
@[simp] theorem State.clock_inputs (s : State) (v : Slot) : (s.clock v).inputs = s.inputs := rfl
@[simp] theorem State.clock_outValid (s : State) (v : Slot) : (s.clock v).outValid = (s.leaving v).valid := rfl
@[simp] theorem State.clock_out (s : State) (v : Slot) : (s.clock v).out =
    if (s.leaving v).valid then (s.leaving v).data else drawResponse s.hasF64 s.draws := rfl
@[simp] theorem State.clock_faultMark (s : State) (v : Slot) : (s.clock v).faultMark = s.faultMark := rfl
@[simp] theorem State.clock_draws (s : State) (v : Slot) : (s.clock v).draws = s.draws + 1 := rfl

/-! ### `State.accept` -/

@[simp] theorem State.accept_line (s : State) (r : Response) :
    (s.accept r).line = ({ valid := true, data := r } :: s.line).dropLast := rfl
@[simp] theorem State.accept_hasF64 (s : State) (r : Response) : (s.accept r).hasF64 = s.hasF64 := rfl
@[simp] theorem State.accept_inputs (s : State) (r : Response) : (s.accept r).inputs = s.inputs := rfl
@[simp] theorem State.accept_outValid (s : State) (r : Response) :
    (s.accept r).outValid = (s.leaving { valid := true, data := r }).valid := rfl
@[simp] theorem State.accept_out (s : State) (r : Response) : (s.accept r).out =
    if (s.leaving { valid := true, data := r }).valid then (s.leaving { valid := true, data := r }).data
    else drawResponse s.hasF64 s.draws := rfl
@[simp] theorem State.accept_faultMark (s : State) (r : Response) : (s.accept r).faultMark = s.faultMark := rfl
@[simp] theorem State.accept_draws (s : State) (r : Response) : (s.accept r).draws = s.draws + 1 := rfl

/-! ### `State.raiseIllegalOp` -/

@[simp] theorem State.raiseIllegalOp_line (s : State) (op : Opcode) :
    (s.raiseIllegalOp op).line = (s.accept (illegalResponse s.hasF64 op)).line := rfl
@[simp] theorem State.raiseIllegalOp_hasF64 (s : State) (op : Opcode) : (s.raiseIllegalOp op).hasF64 = s.hasF64 := rfl
@[simp] theorem State.raiseIllegalOp_inputs (s : State) (op : Opcode) : (s.raiseIllegalOp op).inputs = s.inputs := rfl
@[simp] theorem State.raiseIllegalOp_outValid (s : State) (op : Opcode) :
    (s.raiseIllegalOp op).outValid = (s.accept (illegalResponse s.hasF64 op)).outValid := rfl
@[simp] theorem State.raiseIllegalOp_out (s : State) (op : Opcode) :
    (s.raiseIllegalOp op).out = (s.accept (illegalResponse s.hasF64 op)).out := rfl
@[simp] theorem State.raiseIllegalOp_faultMark (s : State) (op : Opcode) : (s.raiseIllegalOp op).faultMark = true := rfl
@[simp] theorem State.raiseIllegalOp_draws (s : State) (op : Opcode) : (s.raiseIllegalOp op).draws = s.draws + 1 := rfl

/-! ### `State.idleCycle` -/

@[simp] theorem State.idleCycle_line (s : State) :
    s.idleCycle.line = (drawSlot s.hasF64 (s.draws + 1) :: s.line).dropLast := rfl
@[simp] theorem State.idleCycle_hasF64 (s : State) : s.idleCycle.hasF64 = s.hasF64 := rfl
@[simp] theorem State.idleCycle_inputs (s : State) : s.idleCycle.inputs = s.inputs := rfl
@[simp] theorem State.idleCycle_outValid (s : State) :
    s.idleCycle.outValid = (s.leaving (drawSlot s.hasF64 (s.draws + 1))).valid := rfl
@[simp] theorem State.idleCycle_out (s : State) :
    s.idleCycle.out = (s.clock (drawSlot s.hasF64 (s.draws + 1))).out := rfl
@[simp] theorem State.idleCycle_faultMark (s : State) : s.idleCycle.faultMark = s.faultMark := rfl
@[simp] theorem State.idleCycle_draws (s : State) : s.idleCycle.draws = s.draws + 2 := rfl

/-! ### `State.resetCycle` -/

@[simp] theorem State.resetCycle_line (s : State) :
    s.resetCycle.line = drawSlots s.hasF64 (s.draws + 2) s.latency := rfl
@[simp] theorem State.resetCycle_hasF64 (s : State) : s.resetCycle.hasF64 = s.hasF64 := rfl
@[simp] theorem State.resetCycle_inputs (s : State) : s.resetCycle.inputs = s.inputs := rfl
@[simp] theorem State.resetCycle_outValid (s : State) : s.resetCycle.outValid = s.idleCycle.outValid := rfl
@[simp] theorem State.resetCycle_out (s : State) : s.resetCycle.out = s.idleCycle.out := rfl
@[simp] theorem State.resetCycle_faultMark (s : State) : s.resetCycle.faultMark = s.faultMark := rfl
@[simp] theorem State.resetCycle_draws (s : State) : s.resetCycle.draws = s.draws + 2 + s.latency := rfl

/-! ### `State.withFetchWord` -/

@[simp] theorem State.withFetchWord_line (s : State) (n w : Nat) : (s.withFetchWord n w).line = s.line := rfl
@[simp] theorem State.withFetchWord_hasF64 (s : State) (n w : Nat) : (s.withFetchWord n w).hasF64 = s.hasF64 := rfl
@[simp] theorem State.withFetchWord_inputs (s : State) (n w : Nat) : (s.withFetchWord n w).inputs =
    Cycle.ofReqWord (BitVec.ofNat 67 (w % 2 ^ n)) :: s.inputs.tail := rfl
@[simp] theorem State.withFetchWord_outValid (s : State) (n w : Nat) : (s.withFetchWord n w).outValid = s.outValid := rfl
@[simp] theorem State.withFetchWord_out (s : State) (n w : Nat) : (s.withFetchWord n w).out = s.out := rfl
@[simp] theorem State.withFetchWord_faultMark (s : State) (n w : Nat) : (s.withFetchWord n w).faultMark = s.faultMark := rfl
@[simp] theorem State.withFetchWord_draws (s : State) (n w : Nat) : (s.withFetchWord n w).draws = s.draws := rfl

/-! ### `State.resetFor` -/

@[simp] theorem State.resetFor_line (l : Nat) (f : Bool) :
    (State.resetFor l f).line = List.replicate l (emptySlot f) := rfl
@[simp] theorem State.resetFor_hasF64 (l : Nat) (f : Bool) : (State.resetFor l f).hasF64 = f := rfl
@[simp] theorem State.resetFor_inputs (l : Nat) (f : Bool) : (State.resetFor l f).inputs = [] := rfl
@[simp] theorem State.resetFor_outValid (l : Nat) (f : Bool) : (State.resetFor l f).outValid = false := rfl
@[simp] theorem State.resetFor_out (l : Nat) (f : Bool) : (State.resetFor l f).out = zeroResponse f := rfl
@[simp] theorem State.resetFor_faultMark (l : Nat) (f : Bool) : (State.resetFor l f).faultMark = false := rfl
@[simp] theorem State.resetFor_draws (l : Nat) (f : Bool) : (State.resetFor l f).draws = 0 := rfl

end Sys2Proof.Machine
end

