-- ==== Sys2Proof/Laws/Ops.lean ====
section
/-! SUPPORT. What the shared operations do, each said once: the free values, the movement of the
delay line in one clock cycle, and the kind of a cycle. -/

namespace Sys2Proof.Machine

/-! ### Responses and free values -/

@[simp] theorem f64Port_isSome (f : Bool) (v : Double) : (f64Port f v).isSome = f := by
  cases f <;> rfl

@[simp] theorem respondOne_f64_isSome (f : Bool) (op : Opcode) (v : Word) :
    (respondOne f op v).f64.isSome = f := f64Port_isSome f 0

@[simp] theorem respondTwo_f64_isSome (f : Bool) (op : Opcode) (v w : Word) (d : Double) :
    (respondTwo f op v w d).f64.isSome = f := f64Port_isSome f d

@[simp] theorem drawResponse_f64_isSome (f : Bool) (n : Nat) : (drawResponse f n).f64.isSome = f :=
  f64Port_isSome f _

@[simp] theorem drawSlot_valid (f : Bool) (n : Nat) : (drawSlot f n).valid = false := rfl

@[simp] theorem drawSlot_data (f : Bool) (n : Nat) : (drawSlot f n).data = drawResponse f n := rfl

@[simp] theorem drawSlots_length (f : Bool) (n k : Nat) : (drawSlots f n k).length = k := by
  induction k generalizing n with
  | zero => rfl
  | succ k ih => simp [drawSlots, ih]

/-- Every slot of `drawSlots` is a draw, so it is empty. -/
theorem mem_drawSlots {f : Bool} {n k : Nat} {v : Slot} (h : v ∈ drawSlots f n k) : ∃ m, v = drawSlot f m := by
  induction k generalizing n with
  | zero => cases h
  | succ k ih =>
    rcases List.mem_cons.mp h with rfl | h
    · exact ⟨n, rfl⟩
    · exact ih h

/-! ### The delay line -/

/-- One cycle moves every slot on by one: the new slot, then the old line, is the new line, then
the leaving slot. -/
theorem State.clock_moves (s : State) (v : Slot) : (s.clock v).line ++ [s.leaving v] = v :: s.line := by
  have h : (v :: s.line).getLast (List.cons_ne_nil _ _) = s.leaving v := by
    cases hl : s.line <;> simp [State.leaving, hl, List.getLast?_eq_some_getLast]
  rw [State.clock_line, ← h, List.dropLast_append_getLast]

@[simp] theorem State.latency_clock (s : State) (v : Slot) : (s.clock v).latency = s.latency := by
  simp [State.latency]

@[simp] theorem State.latency_accept (s : State) (r : Response) : (s.accept r).latency = s.latency :=
  s.latency_clock _

@[simp] theorem State.latency_raiseIllegalOp (s : State) (op : Opcode) :
    (s.raiseIllegalOp op).latency = s.latency := s.latency_accept _

@[simp] theorem State.latency_idleCycle (s : State) : s.idleCycle.latency = s.latency := s.latency_clock _

@[simp] theorem State.latency_resetCycle (s : State) : s.resetCycle.latency = s.latency := by
  simp [State.latency]

/-- The leaving slot is a slot of the line, or the entering slot of a combinational build. -/
theorem State.leaving_cases (s : State) (v : Slot) :
    (s.line = [] ∧ s.leaving v = v) ∨ s.leaving v ∈ s.line := by
  rcases s.line.eq_nil_or_concat with h | ⟨older, last, h⟩
  · exact .inl ⟨h, by simp [State.leaving, h]⟩
  · exact .inr (by simp [State.leaving, h])

/-- In a pipelined build the leaving slot is the last one, whatever enters. -/
theorem State.leaving_concat {s : State} {older : List Slot} {last : Slot} (h : s.line = older ++ [last])
    (v : Slot) : s.leaving v = last := by
  simp [State.leaving, h]

/-- In a pipelined build the entering slot becomes slot 1, and the last slot is gone. -/
theorem State.clock_line_concat {s : State} {older : List Slot} {last : Slot} (h : s.line = older ++ [last])
    (v : Slot) : (s.clock v).line = v :: older := by
  rw [State.clock_line, h, ← List.cons_append, List.dropLast_concat]

/-- A slot after a cycle is the entering slot or a slot from before. -/
theorem State.mem_clock_line {s : State} {v w : Slot} (h : w ∈ (s.clock v).line) : w = v ∨ w ∈ s.line :=
  List.mem_cons.mp (List.mem_of_mem_dropLast h)

/-- The response of the accepted request stands in slot 1, or on the ports where `LATENCY = 0`. -/
@[simp] theorem State.newest_accept (s : State) (r : Response) :
    (s.accept r).newest = { valid := true, data := r } := by
  cases h : s.line with
  | nil => simp [State.newest, State.leaving, h]
  | cons v vs => simp [State.newest, h]

@[simp] theorem State.newest_raiseIllegalOp (s : State) (op : Opcode) :
    (s.raiseIllegalOp op).newest = { valid := true, data := illegalResponse s.hasF64 op } :=
  s.newest_accept _

/-! ### The kind of a cycle -/

theorem State.cycleKind_reset {s : State} :
    s.cycleKind = .reset ↔ s.ports.rst = true ∧ 0 < s.latency := by
  simp only [State.cycleKind]
  split
  · simp_all
  · split <;> simp_all

theorem State.cycleKind_request {s : State} :
    s.cycleKind = .request ↔ s.ports.inValid = true ∧ (s.ports.rst = false ∨ s.latency = 0) := by
  simp only [State.cycleKind]
  split
  · next h =>
    simp only [Bool.and_eq_true, decide_eq_true_eq] at h
    simp [h.1, Nat.ne_of_gt h.2]
  · next h =>
    have h' : s.ports.rst = false ∨ s.latency = 0 := by
      cases hr : s.ports.rst <;> simp_all
    split <;> simp_all

theorem State.cycleKind_idle {s : State} :
    s.cycleKind = .idle ↔ s.ports.inValid = false ∧ (s.ports.rst = false ∨ s.latency = 0) := by
  simp only [State.cycleKind]
  split
  · next h =>
    simp only [Bool.and_eq_true, decide_eq_true_eq] at h
    simp [h.1, Nat.ne_of_gt h.2]
  · next h =>
    have h' : s.ports.rst = false ∨ s.latency = 0 := by
      cases hr : s.ports.rst <;> simp_all
    split <;> simp_all

end Sys2Proof.Machine
end

