-- ==== Sys2Proof/Laws/PerInstr.lean ====
section
/-! SUPPORT. Per-instruction facts about the syntax.  Family `EncodesItsFields`: the request word
of an instruction holds its opcode and its two operand fields at the places of R50. -/

namespace Sys2Proof.Laws.EncodesItsFields

def Statement (i : Instr) : Prop :=
  reqOp (encode i) = i.opcode ∧ reqB (encode i) = i.portB ∧ reqA (encode i) = i.portA

/-- Any instruction at all, by the layout of `packReq`. -/
theorem all (i : Instr) : Statement i := by simp [Statement, encode]

theorem ilv (b a : Word) : Statement (.ilv b a) := all _
theorem dilv (b a : Word) : Statement (.dilv b a) := all _
theorem gray (b a : Word) : Statement (.gray b a) := all _
theorem pscan (b a : Word) : Statement (.pscan b a) := all _
theorem hdec (hi lo : Word) : Statement (.hdec hi lo) := all _
theorem henc (y x : Word) : Statement (.henc y x) := all _
theorem reserved6 (b a : Word) : Statement (.reserved6 b a) := all _
theorem reserved7 (b a : Word) : Statement (.reserved7 b a) := all _

end Sys2Proof.Laws.EncodesItsFields
end

