-- ==== Sys2Proof/Laws/Step.lean ====
section
/-! SUPPORT. What `exec` and `step` can do, each said once, and how runs compose. -/

namespace Sys2Proof.Machine

/-- A defined operation is accepted with its transaction-level response. -/
theorem exec_defined {i : Instr} (h : i.isReserved = false) (s : State) :
    exec i s = .next (s.accept (respond s.hasF64 i)) := by
  cases i <;> first | rfl | cases h

/-- A reserved opcode raises ILLEGAL_OP. -/
theorem exec_reserved {i : Instr} (h : i.isReserved = true) (s : State) :
    exec i s = .next (s.raiseIllegalOp i.opcode) := by
  cases i <;> first | rfl | cases h

/-- ILLEGAL_OP is the transaction-level response of a reserved opcode. -/
theorem respond_reserved {i : Instr} (h : i.isReserved = true) (f : Bool) :
    respond f i = illegalResponse f i.opcode := by
  cases i <;> first | rfl | cases h

/-- Everything a step can do: a reset cycle, the acceptance of a defined operation or of a reserved
opcode, or an idle cycle. -/
theorem step_cases {s t : State} (h : step s = .next t) :
    (s.cycleKind = .reset ∧ t = s.sampled.resetCycle) ∨
    (s.cycleKind = .request ∧ (decode s.ports.word).isReserved = false ∧
      t = s.sampled.accept (respond s.hasF64 (decode s.ports.word))) ∨
    (s.cycleKind = .request ∧ (decode s.ports.word).isReserved = true ∧
      t = s.sampled.raiseIllegalOp (decode s.ports.word).opcode) ∨
    (s.cycleKind = .idle ∧ t = s.sampled.idleCycle) := by
  unfold step at h
  cases hk : s.cycleKind <;> rw [hk] at h
  · cases h; exact .inl ⟨rfl, rfl⟩
  · cases hr : (decode s.ports.word).isReserved
    · rw [exec_defined hr] at h
      cases h; exact .inr (.inl ⟨rfl, rfl, rfl⟩)
    · rw [exec_reserved hr] at h
      cases h; exact .inr (.inr (.inl ⟨rfl, rfl, rfl⟩))
  · cases h; exact .inr (.inr (.inr ⟨rfl, rfl⟩))

@[simp] theorem run_zero (s : State) : run 0 s = .next s := rfl

/-- A run is its first step, then the rest. -/
theorem run_succ {s t : State} (h : step s = .next t) (k : Nat) : run (k + 1) s = run k t := by
  simp [run, h]

/-- A run of `j + k` cycles is a run of `j` cycles, then one of `k`. -/
theorem run_add {j : Nat} {s t : State} (h : run j s = .next t) (k : Nat) : run (j + k) s = run k t := by
  induction j generalizing s with
  | zero => cases h; simp
  | succ j ih =>
    rw [Nat.succ_add]
    simp only [run] at h ⊢
    cases hs : step s with
    | next u => rw [hs] at h; exact ih h
    | fault r => rw [hs] at h; cases h
    | refused r => rw [hs] at h; cases h

@[simp] theorem State.portsAt_zero (s : State) : s.portsAt 0 = s.ports := by
  cases h : s.inputs <;> simp [State.portsAt, State.ports, h]

/-- After the cycle's ports are sampled, the schedule stands one cycle further. -/
theorem State.portsAt_of_inputs_tail {s t : State} (h : t.inputs = s.inputs.tail) (k : Nat) :
    t.portsAt k = s.portsAt (k + 1) := by
  cases hs : s.inputs <;> simp [State.portsAt, h, hs]

end Sys2Proof.Machine
end

