-- ==== Sys2Proof/Tests/Slice0.lean ====
section
/-! SUPPORT. Tests on small cases, their expected results from the tables of `95_test_vectors.md`
and the rules' own examples, and for every statement with hypotheses a case that meets them. -/

namespace Sys2Proof.Tests

open Sys2Proof.Machine Sys2Proof.Claims

/-! ### Helpers -/

/-- A build with the given slots and schedule, after reset. -/
def start (line : List Slot) (inputs : List Cycle) : State :=
  { State.resetFor 0 true with line := line, inputs := inputs }

/-- A slot with a response whose R0 is `v`. -/
def holding (v : Word) : Slot := { valid := true, data := { zeroResponse true with r0 := v } }

/-- A cycle in which the host issues the request word `w`. -/
def issue (w : ReqWord) : Cycle := Cycle.ofReqWord w

/-- A reset cycle that also carries the request word `w`. -/
def resetWith (w : ReqWord) : Cycle := { Cycle.ofReqWord w with rst := true }

def stateOf : Host.Outcome State Fault Refusal → Option State
  | .next t => some t
  | .fault _ => none
  | .refused _ => none

/-- What a one-cycle build of `LATENCY = 0` presents for the request word `w`. -/
def answer (hasF64 : Bool) (w : Nat) : Option Response :=
  (stateOf (step ((State.resetFor 0 hasF64).withFetchWord 72 w))).bind State.presented

/-! ### Well-formedness: an ill-formed number for each check -/

theorem test_wf_req_word : wfReqWord (2 ^ 67) = false ∧ wfReqWord (2 ^ 67 - 1) = true := by decide
theorem test_wf_operand : wfOperand (2 ^ 32) = false ∧ wfOperand (2 ^ 32 - 1) = true := by decide
theorem test_wf_index_operand : wfIndexOperand (2 ^ 64) = false ∧ wfIndexOperand (2 ^ 64 - 1) = true := by decide
theorem test_wf_name_count : wfNameCount 4 = false ∧ wfNameCount 3 = true := by decide

/-! ### Decoding: words written out from R50 and R53, bit for bit -/

theorem test_decode_ilv : decode 0b000_11011110101011011011111011101111_11111111111111110001001000110100#67
    = .ilv 0xDEADBEEF 0xFFFF1234 := by decide
theorem test_decode_dilv : decode 0b001_00000000000000000000000000000001_00010010001101000101011001111000#67
    = .dilv 1 0x12345678 := by decide
theorem test_decode_gray : decode 0b010_00000000000000000000000000000010_10000000000000000000000000000000#67
    = .gray 2 0x80000000 := by decide
theorem test_decode_pscan : decode 0b011_10000000000000000000000000000000_00011011001011100111110101000100#67
    = .pscan 0x80000000 0x1B2E7D44 := by decide
theorem test_decode_hdec : decode 0b100_00000001001000110100010101100111_10001001101010111100110111101111#67
    = .hdec 0x01234567 0x89ABCDEF := by decide
theorem test_decode_henc : decode 0b101_00000000000000000000000000000011_00000000000000000000000000000101#67
    = .henc 3 5 := by decide
theorem test_decode_reserved6 : decode 0b110_10011010101111001101111011110000_00010010001101000101011001111000#67
    = .reserved6 0x9ABCDEF0 0x12345678 := by decide
theorem test_decode_reserved7 : decode 0b111_11111111111111111111111111111111_11111111111111111111111111111111#67
    = .reserved7 0xFFFFFFFF 0xFFFFFFFF := by decide
theorem test_decode_too_wide : decodeNat (2 ^ 67) = .error .notARequestWord := by rfl
theorem test_decode_table_word : decodeTableWord 72 0x60000000000000000 = some (.reserved6 0 0) := by decide
theorem test_spelling : spellReq 0x59ABCDEF012345678#67 = "5_9ABCDEF0_12345678".toList := by decide

/-! ### One step per vector (V1 to V6, V9, V10) -/

theorem test_ilv_ignored_bits : answer true 0x0DEADBEEFFFFF1234 = some ⟨0x01040510, 0, some 0, false⟩ := by decide
theorem test_ilv_top_bit : answer true 0x00000000000008000 = some ⟨0x40000000, 0, some 0, false⟩ := by decide
theorem test_dilv_top_even_bit : answer true 0x10000000040000000 = some ⟨0x00008000, 0, some 0, false⟩ := by decide
theorem test_dilv_example : answer true 0x1FFFFFFFF12345678 = some ⟨0x000046EC, 0, some 0, false⟩ := by decide
theorem test_gray_logical_shift : answer true 0x20000000080000000 = some ⟨0xC0000000, 0, some 0, false⟩ := by decide
theorem test_gray_example : answer true 0x2FFFFFFFF12345678 = some ⟨0x1B2E7D44, 0, some 0, false⟩ := by decide
theorem test_pscan_top_bit : answer true 0x30000000080000000 = some ⟨0xFFFFFFFF, 0, some 0, false⟩ := by decide
theorem test_pscan_example : answer true 0x3123456781B2E7D44 = some ⟨0x12345678, 0, some 0, false⟩ := by decide
theorem test_hdec_example : answer true 0x40123456789ABCDEF = some ⟨0x14C1BE2F, 0x057AAF94, some 0, false⟩ := by decide
theorem test_hdec_mixed : answer true 0x4DEADBEEFCAFEBABE = some ⟨0xBE6FC180, 0x5D044FC6, some 0, false⟩ := by decide
theorem test_henc_example : answer true 0x59ABCDEF012345678 =
    some ⟨0x4842406A, 0x42484ACA, some 0x43D09212B2921090, false⟩ := by decide +kernel
theorem test_henc_tie : answer true 0x50400000004000001 =
    some ⟨0x00000003, 0x00200000, some 0x4340000000000002, false⟩ := by decide +kernel
theorem test_henc_no_f64_port : answer false 0x50000000300000005 = some ⟨0x1C, 0, none, false⟩ := by decide
theorem test_reserved6 : answer true 0x69ABCDEF012345678 = some ⟨0, 0, some 0, true⟩ := by decide
theorem test_reserved7 : answer true 0x7FFFFFFFFFFFFFFFF = some ⟨0, 0, some 0, true⟩ := by decide
theorem test_f64_last_cell : f64val 0xFFFFFFFF 0xFFFFFFFF = 0x43F0000000000000 := by decide
theorem test_f64_tie_down : f64val 0x00000001 0x00200000 = 0x4340000000000000 := by decide

/-! ### The intermediate values of V7 and V8 -/

theorem test_henc_rounds : ((hencRounds 0x12345678 0x9ABCDEF0).a, (hencRounds 0x12345678 0x9ABCDEF0).b,
    hencEven 0x12345678 0x9ABCDEF0) = (0x000FFFFF, 0x4678645F, 0x123B2107) := by decide
theorem test_henc_first : hencFirst 0x88888888 0x00000008 0x65432107 =
    { a := 0x0080808C, b := 0x57E2B180, c := 0xBBBBBBBB, d := 0xCCCCCCCC } := by decide
theorem test_hdec_planes : (oddPlane 0x89ABCDEF 0x01234567, evenPlane 0x89ABCDEF 0x01234567) =
    (0x11BB11BB, 0x0505AFAF) := by decide

/-! ### The assembler (R58 to R60, P1, P4) -/

theorem test_literal_separators : parseLiteral "0x1B2E_7D44".toList = some 0x1B2E7D44 ∧
    parseLiteral "1_000".toList = some 1000 ∧ parseLiteral "0x".toList = none := by decide
theorem test_line : parseLine "  henc 5, lo -> a, b ; a comment".toList =
    .ok ⟨.henc, .lit 5, some (.var "lo".toList), ["a".toList, "b".toList]⟩ := by rfl
theorem test_operand_too_wide : assembleText "gray 0x100000000".toList = .error .operandTooWide := by rfl
theorem test_unknown_mnemonic : assembleText "ILV 1".toList = .error .unknownMnemonic := by rfl
theorem test_program_p1 :
    (runText true ["henc 0x12345678, 0x9ABCDEF0 -> lo, hi, f".toList, "hdec lo, hi -> x, y".toList]).toOption.map (·.2)
      = some [⟨0x4842406A, 0x42484ACA, some 0x43D09212B2921090, false⟩, ⟨0x12345678, 0x9ABCDEF0, some 0, false⟩] := by
  decide +kernel
theorem test_index_binding : (runText true ["henc 0, 0x80000000 -> n".toList, "hdec64 n -> x, y".toList]).toOption.map (·.1)
    = some [("y".toList, 0x80000000), ("x".toList, 0), ("n".toList, 0x4000000000000000)] := by decide

/-- The model's choice (log 15): a name written twice takes the later field. -/
theorem test_repeated_name : (runText true ["hdec64 6 -> a, a".toList, "gray a".toList]).toOption.map (·.2)
    = some [⟨1, 3, some 0, false⟩, ⟨2, 0, some 0, false⟩] := by decide

/-! ### The clock cycle (P4, P5) -/

/-- P4: the fault mark is set by a reserved opcode, and the next request is exact. -/
theorem test_fault_mark : (stateOf (step (start [] [issue 0x60000000000000001#67]))).map (·.faultMark) = some true := by
  decide
/-- A reset cycle does not accept its request, so a reserved opcode in it leaves the mark clear (R140). -/
theorem test_reset_cycle_ignores_its_request :
    (stateOf (step (start [holding 7] [resetWith 0x60000000000000001#67]))).map (·.faultMark) = some false := by
  decide
/-- P5, `LATENCY = 2`: the response to `gray 5`, issued after the reset cycle, comes two cycles later. -/
theorem test_p5_response : (stateOf (run 3 (start [drawSlot true 0, drawSlot true 1]
    [issue 0x20000000000000005#67]))).bind State.presented = some ⟨7, 0, some 0, false⟩ := by decide
/-- P5: the request in flight at the reset is discarded. -/
theorem test_p5_discarded : (stateOf (run 2 (start [holding 2, drawSlot true 0]
    [resetWith 0x20000000000000004#67]))).map (·.outValid) = some false := by decide

/-! ### Witnesses: cases that meet the hypotheses of the statements -/

theorem witness_packed_response : (∃ (r : Response) (f : Double), r.f64 = some f) ∧ ∃ r : Response, r.f64 = none :=
  ⟨⟨zeroResponse true, 0, rfl⟩, ⟨zeroResponse false, rfl⟩⟩
theorem witness_ignored_bits : ∃ a a' : Word, a ≠ a' ∧ a.extractLsb' 0 16 = a'.extractLsb' 0 16 :=
  ⟨0x00011234, 0xFFFF1234, by decide⟩
theorem witness_interleave_laws : (∃ p q : Half, ilv16 p = ilv16 q) ∧
    ∃ w : Word, w ≠ 0 ∧ ∀ i < 16, w.getLsbD (2 * i + 1) = false := ⟨⟨1, 1, rfl⟩, 0x40000001, by decide⟩
theorem witness_prefix_scan_order : [16, 8, 4, 2, 1].Perm [1, 2, 4, 8, 16] := by decide
theorem witness_index_halves : hencFn 0x12345678 0x9ABCDEF0 = (0x4842406A, 0x42484ACA) := by decide +kernel
theorem witness_inverse_unique : hdecFn 0x1C 0 = (5, 3) := by decide
theorem witness_local : (0 : Index).toNat < 2 ^ 64 - 1 ∧ (0xFFFFFFFFFFFFFFFE : Index).toNat < 2 ^ 64 - 1 := by decide
/-- The four quarters of R105 at the first and the last index of each. -/
theorem witness_quarters :
    hdecIndex 0 = (0, 0) ∧ hdecIndex 0x3FFFFFFFFFFFFFFF = (0, 0x7FFFFFFF) ∧
    hdecIndex 0x4000000000000000 = (0, 0x80000000) ∧ hdecIndex 0x7FFFFFFFFFFFFFFF = (0x7FFFFFFF, 0x80000000) ∧
    hdecIndex 0x8000000000000000 = (0x80000000, 0x80000000) ∧
    hdecIndex 0xBFFFFFFFFFFFFFFF = (0xFFFFFFFF, 0x80000000) ∧
    hdecIndex 0xC000000000000000 = (0xFFFFFFFF, 0x7FFFFFFF) ∧
    hdecIndex 0xFFFFFFFFFFFFFFFF = (0xFFFFFFFF, 0) := by decide
theorem witness_sub_squares : (0 : Index).toNat < 4 ^ 0 ∧ (0xFFFFFFFFFFFFFFFF : Index).toNat < 4 ^ 32 ∧
    (0 : Word).toNat < 2 ^ 0 ∧ (0xFFFFFFFF : Word).toNat < 2 ^ 32 := by decide
/-- Zero, the last exact integer, and the tie 2^53 + 1 between 2^53 (even) and 2^53 + 2. -/
theorem witness_float : f64Exponent (f64val 0 0) = 0 ∧ (0x00200000 * 2 ^ 32 ≤ 2 ^ 53) ∧
    f64Finite 0x4340000000000001 = true ∧ (0x4340000000000001 : Double) ≠ f64val 1 0x00200000 ∧
    floatError (2 ^ 53 + 1) 0x4340000000000001 = floatError (2 ^ 53 + 1) (f64val 1 0x00200000) := by decide +kernel
theorem witness_line_moves : (start [holding 1, holding 2] []).line = [holding 1] ++ [holding 2] ∧
    (holding 2).valid = true := by decide
theorem witness_combinational : (start [] [issue 0]).latency = 0 ∧ (start [] [issue 0]).ports.inValid = true := by decide
theorem witness_step_runs : (start [holding 1] [issue 0]).ports.inValid = true ∧
    (start [holding 1] [issue 0]).ports.rst = false ∧ (start [] [resetWith 0]).latency = 0 ∧
    (start [] [resetWith 0]).ports.inValid = true := by decide
theorem witness_idle : State.reset.ports.inValid = false ∧ State.reset.ports.rst = false := by decide
theorem witness_run : ∃ t, run 1 State.reset = .next t := ⟨_, rfl⟩
theorem witness_fault_mark : (start [] [issue 0x60000000000000000#67]).cycleKind = .request ∧
    6 ≤ (start [] [issue 0x60000000000000000#67]).ports.op.toNat := by decide
theorem witness_reset : 0 < (start [holding 1] [resetWith 0]).latency ∧
    (start [holding 1] [resetWith 0]).ports.rst = true ∧ State.reset.latency = 0 := by decide
theorem witness_no_reset : (∀ j ≤ (start [holding 1] [issue 0, issue 1]).latency,
      ((start [holding 1] [issue 0, issue 1]).portsAt (0 + j)).rst = false) ∧
    ((start [holding 1] [issue 0, issue 1]).portsAt 0).inValid = true := by decide
theorem witness_reset_forgets : (start [holding 1] [resetWith 0]).latency = (start [holding 9] [resetWith 0]).latency ∧
    (start [holding 1] [resetWith 0]).hasF64 = (start [holding 9] [resetWith 0]).hasF64 ∧
    (start [holding 1] [resetWith 0]).inputs = (start [holding 9] [resetWith 0]).inputs ∧
    0 < (start [holding 1] [resetWith 0]).latency ∧ (start [holding 1] [resetWith 0]).ports.rst = true := by decide
/-- A request answered, and one lost to a reset one cycle later, with `LATENCY = 2`. -/
theorem witness_unless_reset : 0 < (start [holding 1, holding 2] [issue 0]).latency ∧
    ((start [holding 1, holding 2] [issue 0]).portsAt 0).inValid = true ∧
    (∀ j < 2, ((start [holding 1, holding 2] [issue 0]).portsAt (0 + j)).rst = false) ∧
    ((start [holding 1, holding 2] [issue 0, resetWith 0]).portsAt (0 + 1)).rst = true := by decide
theorem witness_stateless : (start [] [issue 5]).hasF64 = (start [holding 1] [issue 5]).hasF64 ∧
    (∀ j ≤ 0, ((start [] [issue 5]).portsAt (0 + j)).rst = false) ∧
    (∀ j ≤ 1, ((start [holding 1] [issue 5]).portsAt (0 + j)).rst = false) ∧
    ((start [] [issue 5]).portsAt 0).inValid = true ∧ ((start [holding 1] [issue 5]).portsAt 0).inValid = true ∧
    ((start [] [issue 5]).portsAt 0).word = ((start [holding 1] [issue 5]).portsAt 0).word := by decide
theorem witness_safe_run : safeFor 2 (start [drawSlot true 0] [issue 5]) = true ∧
    ((start [drawSlot true 0] [issue 5]).portsAt 0).inValid = true ∧
    ((start [drawSlot true 0] [issue 5]).portsAt 0).rst = false := by decide
theorem witness_step_keeps_inv : (start [] [issue 5]).Inv ∧ ∃ t, step (start [] [issue 5]) = .next t :=
  ⟨⟨by simp [start], by decide, by simp [start], by simp [start]⟩, _, rfl⟩
theorem witness_pseudo : 2 ^ 64 - 1 < 2 ^ 64 := by decide
/-- Both branches of the literal rule at their boundary, in the first and the second operand. -/
theorem witness_literals : assemble [] ⟨.gray, .lit (2 ^ 32 - 1), none, []⟩ = .ok (.gray 0 0xFFFFFFFF) ∧
    assemble [] ⟨.gray, .lit (2 ^ 32), none, []⟩ = .error .operandTooWide ∧
    assemble [] ⟨.henc, .lit 5, some (.lit (2 ^ 32 - 1)), []⟩ = .ok (.henc 0xFFFFFFFF 5) ∧
    assemble [] ⟨.henc, .lit 5, some (.lit (2 ^ 32)), []⟩ = .error .operandTooWide := ⟨rfl, rfl, rfl, rfl⟩
/-- Both branches of the literal of `hdec64` at their boundary. -/
theorem witness_index_literals :
    assemble [] ⟨.hdec64, .lit (2 ^ 64 - 1), none, []⟩ = .ok (.hdec 0xFFFFFFFF 0xFFFFFFFF) ∧
    assemble [] ⟨.hdec64, .lit (2 ^ 64), none, []⟩ = .error .operandTooWide := ⟨rfl, rfl⟩

end Sys2Proof.Tests
end

section
/-! PROOF. The Gray code of consecutive words (R16, R74). -/

namespace Sys2Proof.Machine

/-- GRAY32 is linear over XOR (R74). -/
theorem gray32_xor (v w : Word) : gray32 (v ^^^ w) = gray32 v ^^^ gray32 w := by
  simp only [gray32, BitVec.ushiftRight_xor_distrib]
  ac_rfl

/-- Adding 1 flips exactly the bits below which the word has only ones: the carry reaches no other. -/
theorem getLsbD_xor_add_one (v : Word) {i : Nat} (hi : i < 32) :
    (v ^^^ (v + 1)).getLsbD i = decide (∀ j < i, v.getLsbD j = true) := by
  rw [BitVec.getLsbD_xor, BitVec.getLsbD_add hi]
  cases i with
  | zero => simp
  | succ i => simp [BitVec.carry_succ_one]

/-- A word and its successor differ in the bits up to some `k` and in no other: `k` is the lowest
zero bit of the word, or 31 where there is none below. -/
theorem exists_getLsbD_xor_add_one (v : Word) :
    ∃ k < 32, ∀ i, (v ^^^ (v + 1)).getLsbD i = decide (i ≤ k) := by
  have hex : ∃ k, v.getLsbD k = false ∨ k = 31 := ⟨31, .inr rfl⟩
  have hk : Nat.find hex < 32 := Nat.lt_succ_of_le (Nat.find_min' hex (.inr rfl))
  refine ⟨Nat.find hex, hk, fun i => ?_⟩
  by_cases hi : i < 32
  · rw [getLsbD_xor_add_one v hi, decide_eq_decide, Nat.le_find_iff]
    refine forall₂_congr fun j hj => ?_
    simp [show j ≠ 31 by omega]
  · rw [BitVec.getLsbD_of_ge _ i (Nat.le_of_not_lt hi)]
    exact (decide_eq_false (by omega)).symm

/-- The Gray code of the ones up to bit `k` is bit `k` alone. -/
theorem gray32_of_low_ones {u : Word} {k : Nat} (hk : k < 32) (hu : ∀ i, u.getLsbD i = decide (i ≤ k)) :
    gray32 u = BitVec.twoPow 32 k := by
  refine BitVec.eq_of_getLsbD_eq fun i _ => ?_
  rw [getLsbD_gray32, hu, hu, BitVec.getLsbD_twoPow]
  rcases lt_trichotomy i k with h | rfl | h
  · simp [h.le, Nat.succ_le_of_lt h, h.ne']
  · simp [hk]
  · simp [h.not_ge, h.ne, show ¬ i + 1 ≤ k by omega]

/-- Settles O15: the word and its successor differ in a run of low bits, whose Gray code is one bit. -/
theorem grayCodeChangesOneBit : Obligations.GrayCodeChangesOneBit := by
  intro v
  obtain ⟨k, hk, hbits⟩ := exists_getLsbD_xor_add_one v
  exact ⟨k, hk, by rw [← gray32_xor, gray32_of_low_ones hk hbits]⟩

end Sys2Proof.Machine
end

section
/-! PROOF. Every step keeps the invariant of the delay line and the ports (R9, R121, R123). -/

namespace Sys2Proof.Machine

/-! ### What is asked of one response -/

/-- Setting the fault mark breaks no response's condition. -/
theorem Response.ok.setMark {f m : Bool} {r : Response} (h : r.ok f m) : r.ok f true :=
  fun he => ⟨(h he).1, rfl⟩

/-- A response with ERR = 0 meets the condition, whatever the mark. -/
theorem Response.ok.of_err_false {f m : Bool} {r : Response} (h : r.err = false) : r.ok f m := by
  simp [Response.ok, h]

/-- Every response has the F64 field exactly as the build does (R9, R52). -/
theorem respond_f64_isSome (f : Bool) (i : Instr) : (respond f i).f64.isSome = f := by
  cases i <;> exact f64Port_isSome f _

/-- A defined operation answers with ERR = 0 (R25). -/
theorem respond_err_of_defined {i : Instr} (h : i.isReserved = false) (f : Bool) :
    (respond f i).err = false := by
  cases i with
  | reserved6 | reserved7 => cases h
  | ilv | dilv | gray | pscan | hdec | henc => rfl

/-- The ILLEGAL_OP response carries zeros (R121), so it meets the condition once the mark is set. -/
theorem illegalResponse_ok (f : Bool) (op : Opcode) : (illegalResponse f op).ok f true :=
  fun he => ⟨by simpa [illegalResponse, respondTwo, f64Port] using he, rfl⟩

/-! ### What is asked of one slot -/

/-- What `State.Inv` asks of each slot of the line. -/
def Slot.Inv (hasF64 faultMark : Bool) (v : Slot) : Prop :=
  v.data.f64.isSome = hasF64 ∧ (v.valid = true → v.data.ok hasF64 faultMark)

/-- A drawn slot is empty and has the build's ports. -/
theorem drawSlot_inv (f m : Bool) (n : Nat) : (drawSlot f n).Inv f m :=
  ⟨drawResponse_f64_isSome f n, fun h => nomatch h⟩

theorem State.Inv.slot {s : State} (h : s.Inv) {v : Slot} (hv : v ∈ s.line) : v.Inv s.hasF64 s.faultMark :=
  ⟨h.line_f64 v hv, h.line_ok v hv⟩

/-! ### The invariant along the shared operations -/

/-- The ports present a slot that was in the line or has just entered. -/
theorem State.Inv.leaving {s : State} (h : s.Inv) {v : Slot} (hv : v.Inv s.hasF64 s.faultMark) :
    (s.leaving v).Inv s.hasF64 s.faultMark := by
  rcases s.leaving_cases v with ⟨-, hl⟩ | hl
  · rwa [hl]
  · exact h.slot hl

/-- One clock edge keeps the invariant when the entering slot meets it. -/
theorem State.Inv.clock {s : State} (h : s.Inv) {v : Slot} (hv : v.Inv s.hasF64 s.faultMark) :
    (s.clock v).Inv := by
  have hline : ∀ w ∈ (s.clock v).line, w.Inv s.hasF64 s.faultMark := by
    intro w hw
    rcases State.mem_clock_line hw with rfl | hw
    · exact hv
    · exact h.slot hw
  obtain ⟨hf64, hok⟩ := h.leaving hv
  refine ⟨fun w hw => (hline w hw).1, ?_, fun w hw => (hline w hw).2, ?_⟩
  · rw [State.clock_out, State.clock_hasF64]
    split
    · exact hf64
    · exact drawResponse_f64_isSome _ _
  · intro hvalid
    rw [State.clock_outValid] at hvalid
    rw [State.clock_out, if_pos hvalid]
    exact hok hvalid

/-- Accepting a request keeps the invariant when its response meets it. -/
theorem State.Inv.accept {s : State} (h : s.Inv) {r : Response} (hf64 : r.f64.isSome = s.hasF64)
    (hok : r.ok s.hasF64 s.faultMark) : (s.accept r).Inv :=
  h.clock ⟨hf64, fun _ => hok⟩

theorem State.Inv.setMark {s : State} (h : s.Inv) : { s with faultMark := true }.Inv :=
  ⟨h.line_f64, h.out_f64, fun v hv hvalid => (h.line_ok v hv hvalid).setMark,
    fun hvalid => (h.out_ok hvalid).setMark⟩

/-- Raising ILLEGAL_OP is accepting its response with the mark set already (R123, log 9). -/
theorem State.raiseIllegalOp_eq_accept (s : State) (op : Opcode) :
    s.raiseIllegalOp op = { s with faultMark := true }.accept (illegalResponse s.hasF64 op) := rfl

theorem State.Inv.raiseIllegalOp {s : State} (h : s.Inv) (op : Opcode) : (s.raiseIllegalOp op).Inv := by
  rw [State.raiseIllegalOp_eq_accept]
  exact h.setMark.accept (respondTwo_f64_isSome ..) (illegalResponse_ok _ op)

/-- The invariant does not read the schedule, so sampling the ports keeps it. -/
theorem State.Inv.sampled {s : State} (h : s.Inv) : s.sampled.Inv :=
  ⟨h.line_f64, h.out_f64, h.line_ok, h.out_ok⟩

theorem State.Inv.idleCycle {s : State} (h : s.Inv) : s.idleCycle.Inv := by
  have hc := h.clock (drawSlot_inv s.hasF64 s.faultMark (s.draws + 1))
  exact ⟨hc.line_f64, hc.out_f64, hc.line_ok, hc.out_ok⟩

/-- A reset cycle presents what an idle cycle does, and leaves only drawn slots in the line. -/
theorem State.Inv.resetCycle {s : State} (h : s.Inv) : s.resetCycle.Inv := by
  have hline : ∀ v ∈ s.resetCycle.line, v.Inv s.hasF64 s.faultMark := by
    intro v hv
    obtain ⟨n, rfl⟩ := mem_drawSlots hv
    exact drawSlot_inv _ _ n
  exact ⟨fun v hv => (hline v hv).1, h.idleCycle.out_f64, fun v hv => (hline v hv).2, h.idleCycle.out_ok⟩

/-- Settles O44, by the kind of the cycle. -/
theorem stepKeepsTheInvariant : Obligations.StepKeepsTheInvariant := by
  intro s t h hstep
  rcases step_cases hstep with ⟨-, rfl⟩ | ⟨-, hdef, rfl⟩ | ⟨-, -, rfl⟩ | ⟨-, rfl⟩
  · exact h.sampled.resetCycle
  · exact h.sampled.accept (respond_f64_isSome _ _) (.of_err_false (respond_err_of_defined hdef _))
  · exact h.sampled.raiseIllegalOp _
  · exact h.sampled.idleCycle

end Sys2Proof.Machine
end

section
/-! PROOF. What one cycle takes in, moves and presents, and what a run keeps, each said once
(R26, R29, R143, R144). -/

namespace Sys2Proof.Machine

open Sys2Proof.Claims

/-! ### The delay line -/

/-- The line is empty in a combinational build, and has a last slot in a pipelined one (R29). -/
theorem State.line_cases (s : State) :
    (s.latency = 0 ∧ s.line = []) ∨
      ∃ older last, s.latency = older.length + 1 ∧ s.line = older ++ [last] := by
  rcases List.eq_nil_or_concat' s.line with h | ⟨older, last, h⟩
  · exact .inl ⟨by simp [State.latency, h], h⟩
  · exact .inr ⟨older, last, by simp [State.latency, h], h⟩

/-- In a combinational build the entering slot is the one presented (R29). -/
theorem State.leaving_of_latency_zero {s : State} (h : s.latency = 0) (v : Slot) : s.leaving v = v := by
  simp [State.leaving, List.eq_nil_of_length_eq_zero h]

/-- In a pipelined build the slot presented does not depend on the entering slot (R29). -/
theorem State.leaving_congr {s : State} (h : 0 < s.latency) (v w : Slot) : s.leaving v = s.leaving w := by
  obtain ⟨hlat, -⟩ | ⟨older, last, -, hline⟩ := s.line_cases
  · exact absurd hlat h.ne'
  · rw [State.leaving_concat hline, State.leaving_concat hline]

/-- A clock edge moves the delay line on by one, whatever enters. -/
theorem lineMoves_clock (s : State) (v : Slot) : LineMoves s (s.clock v) := by
  refine ⟨s.latency_clock v, fun older last hline => ⟨?_, ?_, fun hvalid => ?_⟩⟩
  · rw [State.clock_line_concat hline, List.tail_cons]
  · rw [State.clock_outValid, State.leaving_concat hline]
  · rw [State.clock_out, State.leaving_concat hline, if_pos hvalid]

theorem lineMoves_accept (s : State) (r : Response) : LineMoves s (s.accept r) := lineMoves_clock s _

/-! ### What the ports present -/

/-- The response a slot presents when it leaves the line: nothing where it is empty (R146). -/
def Slot.presented (v : Slot) : Option Response := if v.valid then some v.data else none

theorem State.presented_eq_some {s : State} {r : Response} :
    s.presented = some r ↔ s.outValid = true ∧ s.out = r := by
  simp [State.presented]

theorem State.presented_eq_none {s : State} : s.presented = none ↔ s.outValid = false := by
  simp [State.presented]

/-- After a clock edge the ports present the leaving slot. -/
theorem State.presented_clock (s : State) (v : Slot) : (s.clock v).presented = (s.leaving v).presented := by
  rw [State.presented, Slot.presented, State.clock_outValid, State.clock_out]
  split <;> rfl

/-! ### One step -/

/-- The slot that the coming cycle puts into the line, if it does not reset the block (R143). -/
def State.entering (s : State) : Slot :=
  if s.ports.inValid then { valid := true, data := transact s.hasF64 s.ports.word }
  else drawSlot s.hasF64 (s.draws + 1)

theorem State.presented_entering (s : State) : s.entering.presented =
    if s.ports.inValid then some (transact s.hasF64 s.ports.word) else none := by
  unfold State.entering
  split <;> rfl

/-- A request cycle executes the decoded request on the sampled state (R21, R143). -/
theorem step_of_request {s : State} (h : s.cycleKind = .request) :
    step s = exec (decode s.ports.word) s.sampled := by
  simp only [step, h]

/-- Accepting a request puts its transaction-level response into the line, whether its opcode is
defined or reserved: the two differ in the fault mark only (R121, R123). -/
theorem exec_accepts (i : Instr) (s : State) : ∃ m : Bool,
    exec i s = .next { s.accept (respond s.hasF64 i) with faultMark := m } := by
  cases hi : i.isReserved with
  | false => exact ⟨s.faultMark, exec_defined hi s⟩
  | true => exact ⟨true, by rw [exec_reserved hi, respond_reserved hi]; rfl⟩

/-- A cycle that does not reset the block is a clock edge with the entering slot, up to the fault
mark and the count of draws. -/
theorem step_eq_clock {s : State} (h : s.cycleKind ≠ .reset) : ∃ (m : Bool) (n : Nat),
    step s = .next { s.sampled.clock s.entering with faultMark := m, draws := n } := by
  cases hk : s.cycleKind with
  | reset => exact absurd hk h
  | request =>
    obtain ⟨m, hm⟩ := exec_accepts (decode s.ports.word) s.sampled
    rw [step_of_request hk, hm, State.entering, if_pos (State.cycleKind_request.mp hk).1]
    exact ⟨m, _, rfl⟩
  | idle =>
    have hin : s.ports.inValid = false := (State.cycleKind_idle.mp hk).1
    simp only [step, hk, State.entering, hin]
    exact ⟨_, _, rfl⟩

/-- Every step has a next state, which has used up one cycle of the schedule (R120). -/
theorem step_completes (s : State) : ∃ t, step s = .next t ∧ t.inputs = s.inputs.tail := by
  by_cases hk : s.cycleKind = .reset
  · exact ⟨s.sampled.resetCycle, by simp only [step, hk], rfl⟩
  · obtain ⟨m, n, hstep⟩ := step_eq_clock hk
    exact ⟨_, hstep, rfl⟩

/-- A step writes neither build parameter (R26). -/
theorem step_keeps_build {s t : State} (h : step s = .next t) :
    t.latency = s.latency ∧ t.hasF64 = s.hasF64 := by
  rcases step_cases h with ⟨-, rfl⟩ | ⟨-, -, rfl⟩ | ⟨-, -, rfl⟩ | ⟨-, rfl⟩ <;> simp

/-- In a pipelined build a cycle without a reset moves the line on by one (R29, R144). -/
theorem step_line_concat {s t : State} {older : List Slot} {last : Slot} (h : step s = .next t)
    (hrst : s.ports.rst = false) (hline : s.line = older ++ [last]) : t.line = s.entering :: older := by
  have hk : s.cycleKind ≠ .reset := fun hk => by simp [State.cycleKind_reset, hrst] at hk
  obtain ⟨m, n, hstep⟩ := step_eq_clock hk
  cases hstep.symm.trans h
  exact State.clock_line_concat (s := s.sampled) hline _

/-- Every cycle presents the leaving slot, a reset cycle too (R144, log 7). -/
theorem step_presented {s t : State} (h : step s = .next t) : t.presented = (s.leaving s.entering).presented := by
  by_cases hk : s.cycleKind = .reset
  · simp only [step, hk] at h
    cases h
    rw [s.leaving_congr (State.cycleKind_reset.mp hk).2 _ (drawSlot s.hasF64 (s.draws + 1))]
    exact s.sampled.presented_clock _
  · obtain ⟨m, n, hstep⟩ := step_eq_clock hk
    cases hstep.symm.trans h
    exact s.sampled.presented_clock _

/-! ### Runs -/

/-- A run of `k + 1` cycles that completes is a step that does, then a run of `k` cycles. -/
theorem run_succ_next {k : Nat} {s t : State} (h : run (k + 1) s = .next t) :
    ∃ u, step s = .next u ∧ run k u = .next t := by
  obtain ⟨u, hstep, -⟩ := step_completes s
  exact ⟨u, hstep, (run_succ hstep k).symm.trans h⟩

/-- Every run completes, and has used up as many cycles of the schedule as it is long (R120). -/
theorem run_completes (k : Nat) (s : State) : ∃ t, run k s = .next t ∧ t.inputs = s.inputs.drop k := by
  induction k generalizing s with
  | zero => exact ⟨s, rfl, rfl⟩
  | succ k ih =>
    obtain ⟨u, hstep, hinputs⟩ := step_completes s
    obtain ⟨t, hrun, ht⟩ := ih u
    refine ⟨t, (run_succ hstep k).trans hrun, ?_⟩
    rw [ht, hinputs, List.drop_tail]

/-- A run of any length writes neither build parameter (R26). -/
theorem run_keeps_build {k : Nat} {s t : State} (h : run k s = .next t) :
    t.latency = s.latency ∧ t.hasF64 = s.hasF64 := by
  induction k generalizing s with
  | zero => cases h; exact ⟨rfl, rfl⟩
  | succ k ih =>
    obtain ⟨u, hstep, hrun⟩ := run_succ_next h
    obtain ⟨hlat, hf64⟩ := step_keeps_build hstep
    obtain ⟨hlat', hf64'⟩ := ih hrun
    exact ⟨hlat'.trans hlat, hf64'.trans hf64⟩

/-- After `k` cycles the schedule stands `k` cycles further. -/
theorem State.portsAt_of_inputs_drop {s t : State} {k : Nat} (h : t.inputs = s.inputs.drop k) (j : Nat) :
    t.portsAt j = s.portsAt (k + j) := by
  simp [State.portsAt, h, List.getD_eq_getElem?_getD]

/-! ### From a request to its response -/

/-- A slot with `older.length` slots before it leaves the line that many cycles later, if no reset
comes until then; a reset in the cycle in which it leaves does not matter (R140, R144). -/
theorem run_presents_slot {s : State} {newer older : List Slot} {v : Slot}
    (hline : s.line = newer ++ v :: older) (hrst : ∀ j < older.length, (s.portsAt j).rst = false) :
    ∃ u, run (older.length + 1) s = .next u ∧ u.presented = v.presented := by
  induction older using List.reverseRecOn generalizing s newer with
  | nil =>
    obtain ⟨t, hstep, -⟩ := step_completes s
    refine ⟨t, run_succ hstep 0, ?_⟩
    rw [step_presented hstep, State.leaving_concat hline]
  | append_singleton older last ih =>
    rw [List.length_append, List.length_singleton] at hrst ⊢
    obtain ⟨t, hstep, hinputs⟩ := step_completes s
    have hrst0 : s.ports.rst = false := s.portsAt_zero ▸ hrst 0 (Nat.succ_pos _)
    rw [← List.cons_append, ← List.append_assoc] at hline
    have hline' : t.line = (s.entering :: newer) ++ v :: older := step_line_concat hstep hrst0 hline
    obtain ⟨u, hrun, hu⟩ := ih hline' fun j hj => by
      rw [State.portsAt_of_inputs_tail hinputs]
      exact hrst (j + 1) (Nat.succ_lt_succ hj)
    exact ⟨u, (run_succ hstep _).trans hrun, hu⟩

/-- What the coming cycle takes in is presented `LATENCY` cycles later, if no reset comes before
that cycle (R140, R144). -/
theorem run_presents_entering {s : State} (hrst : ∀ j < s.latency, (s.portsAt j).rst = false) :
    ∃ u, run (s.latency + 1) s = .next u ∧ u.presented = s.entering.presented := by
  obtain ⟨t, hstep, hinputs⟩ := step_completes s
  obtain ⟨hlat, -⟩ | ⟨older, last, hlat, hline⟩ := s.line_cases <;> rw [hlat] at hrst ⊢
  · refine ⟨t, run_succ hstep 0, ?_⟩
    rw [step_presented hstep, State.leaving_of_latency_zero hlat]
  · have hrst0 : s.ports.rst = false := s.portsAt_zero ▸ hrst 0 (Nat.succ_pos _)
    have hline' : t.line = [] ++ s.entering :: older := step_line_concat hstep hrst0 hline
    obtain ⟨u, hrun, hu⟩ := run_presents_slot hline' fun j hj => by
      rw [State.portsAt_of_inputs_tail hinputs]
      exact hrst (j + 1) (Nat.succ_lt_succ hj)
    exact ⟨u, (run_succ hstep _).trans hrun, hu⟩

/-- The request of cycle `t` is answered `LATENCY` cycles later by its transaction-level response,
if no reset comes from cycle `t` until then; without a request nothing is presented (R144). -/
theorem run_presents_response {s : State} {t : Nat}
    (hrst : ∀ j < s.latency, (s.portsAt (t + j)).rst = false) :
    ∃ u, run (t + s.latency + 1) s = .next u ∧
      u.presented = if (s.portsAt t).inValid then some (transact s.hasF64 (s.portsAt t).word) else none := by
  obtain ⟨v, hrun, hinputs⟩ := run_completes t s
  obtain ⟨hlat, hf64⟩ := run_keeps_build hrun
  have hports : v.ports = s.portsAt t := by
    rw [← State.portsAt_zero, State.portsAt_of_inputs_drop hinputs, Nat.add_zero]
  obtain ⟨u, hrun', hu⟩ := run_presents_entering (s := v) fun j hj => by
    rw [State.portsAt_of_inputs_drop hinputs]
    exact hrst j (hlat ▸ hj)
  refine ⟨u, ?_, ?_⟩
  · rw [Nat.add_assoc, run_add hrun, ← hlat, hrun']
  · rw [hu, State.presented_entering, hports, hf64]

end Sys2Proof.Machine
end

section
/-! PROOF. Frames, build parameters, stateless responses and the state after reset
(`10_state.md`). -/

namespace Sys2Proof.Machine

/-! ### Responses do not depend on the state -/

/-- Settles O41: both machines present the transaction-level response of the one request word. -/
theorem responsesAreStateless : Obligations.ResponsesAreStateless := by
  intro s s' t t' hf64 hrst hrst' hin hin' hword
  obtain ⟨u, hrun, hu⟩ := run_presents_response fun j hj => hrst j hj.le
  obtain ⟨u', hrun', hu'⟩ := run_presents_response fun j hj => hrst' j hj.le
  rw [if_pos hin, State.presented_eq_some] at hu
  rw [if_pos hin', ← hf64, ← hword, State.presented_eq_some] at hu'
  obtain ⟨hvalid, hout⟩ := hu
  obtain ⟨hvalid', hout'⟩ := hu'
  exact ⟨u, u', hrun, hrun', hvalid, hvalid', hout.trans hout'.symm⟩

/-! ### Frames -/

/-- Settles O29: a defined operation accepts its response, and accepting is one clock edge. -/
theorem definedOperationsFrame : Obligations.DefinedOperationsFrame := by
  intro b a s i hi
  have hdef : i.isReserved = false := by
    simp only [List.mem_cons, List.not_mem_nil, or_false] at hi
    rcases hi with rfl | rfl | rfl | rfl | rfl | rfl <;> rfl
  refine ⟨_, exec_defined hdef s, rfl, rfl, rfl, lineMoves_accept s _, fun hlat => ?_⟩
  rw [State.accept_outValid, State.leaving_of_latency_zero hlat]

/-- Settles O33, by induction on the length of the run. -/
theorem buildParametersNeverChange : Obligations.BuildParametersNeverChange :=
  fun _ _ _ => run_keeps_build

/-! ### One step -/

/-- The operation selected by an instruction's own opcode and fields is the instruction (R53). -/
theorem decode_encode (i : Instr) : decode (encode i) = i := by
  rw [encode, decode_packReq]
  cases i <;> rfl

/-- The ports of a cycle that issues a request word carry that word (R50). -/
theorem decode_word_ofReqWord (w : ReqWord) : decode (Cycle.ofReqWord w).word = decode w :=
  decode_packReq _ _ _

/-- A request word fits in the nine bytes of its row in the opcode table. -/
theorem ofNat_toNat_mod_two_pow_72 (w : ReqWord) : BitVec.ofNat 67 (w.toNat % 2 ^ 72) = w := by
  have hw : w.toNat < 2 ^ 72 := w.isLt.trans (by decide)
  rw [Nat.mod_eq_of_lt hw, BitVec.ofNat_toNat, BitVec.setWidth_eq]

/-- Settles O30: the ports decide that the cycle is a request; `withFetchWord` makes it one. -/
theorem stepRunsTheDecodedRequest : Obligations.StepRunsTheDecodedRequest := by
  refine ⟨fun s hin hrst => step_of_request (State.cycleKind_request.mpr ⟨hin, hrst⟩), fun s i => ?_⟩
  have hports : (s.withFetchWord 72 (encode i).toNat).ports = Cycle.ofReqWord (encode i) := by
    rw [State.ports, State.withFetchWord_inputs, ofNat_toNat_mod_two_pow_72, List.headD_cons]
  have hk : (s.withFetchWord 72 (encode i).toNat).cycleKind = .request :=
    State.cycleKind_request.mpr (by rw [hports]; exact ⟨rfl, .inl rfl⟩)
  rw [step_of_request hk, hports, decode_word_ofReqWord, decode_encode]
  rfl

/-- Settles O38: with no slot in the line, what enters is presented in the same cycle. -/
theorem combinationalBuildAnswersAtOnce : Obligations.CombinationalBuildAnswersAtOnce := by
  intro s hlat
  obtain ⟨t, hstep, -⟩ := step_completes s
  have hpres := step_presented hstep
  rw [State.leaving_of_latency_zero hlat, State.presented_entering] at hpres
  refine ⟨t, hstep, ?_⟩
  cases hin : s.ports.inValid with
  | false =>
    rw [hin, if_neg Bool.false_ne_true, State.presented_eq_none] at hpres
    exact ⟨hpres, fun h => absurd h Bool.false_ne_true⟩
  | true =>
    rw [hin, if_pos rfl, State.presented_eq_some] at hpres
    obtain ⟨hvalid, hout⟩ := hpres
    exact ⟨hvalid, fun _ => hout⟩

/-! ### The state after reset -/

/-- Every slot after reset is the empty slot. -/
theorem State.eq_emptySlot_of_mem_resetFor {l : Nat} {f : Bool} {v : Slot} (h : v ∈ (State.resetFor l f).line) :
    v = emptySlot f :=
  List.eq_of_mem_replicate h

/-- Settles O35: the line is `LATENCY` empty slots. -/
theorem resetLeavesNothingValid : Obligations.ResetLeavesNothingValid := by
  refine fun l f => ⟨List.length_replicate, rfl, fun v hv => ?_, rfl⟩
  rw [State.eq_emptySlot_of_mem_resetFor hv]
  rfl

theorem zeroResponse_f64_isSome (f : Bool) : (zeroResponse f).f64.isSome = f := by cases f <;> rfl

/-- The zero data has the build's ports, and nothing is valid (R31). -/
theorem State.inv_resetFor (l : Nat) (f : Bool) : (State.resetFor l f).Inv := by
  have hline : ∀ v ∈ (State.resetFor l f).line, v.Inv f false := by
    intro v hv
    rw [State.eq_emptySlot_of_mem_resetFor hv]
    exact ⟨zeroResponse_f64_isSome f, fun h => nomatch h⟩
  exact ⟨fun v hv => (hline v hv).1, zeroResponse_f64_isSome f, fun v hv => (hline v hv).2, fun h => nomatch h⟩

/-- Settles O43: `State.reset` is one of the builds. -/
theorem resetMeetsTheInvariant : Obligations.ResetMeetsTheInvariant :=
  ⟨State.inv_resetFor _ _, State.inv_resetFor⟩

end Sys2Proof.Machine
end

section
/-! PROOF. The 64-bit index: its value, its halves, and the ports that carry them
(`20_memory.md` section 2, R41). -/

namespace Sys2Proof.Machine

/-! ### The value and the halves of an index -/

/-- The index is the number `hi * 2^32 + lo` (R41). -/
theorem toNat_indexOf (lo hi : Word) : (indexOf lo hi).toNat = hi.toNat * 2 ^ 32 + lo.toNat := by
  have happend : (indexOf lo hi).toNat = hi.toNat <<< 32 ||| lo.toNat := BitVec.toNat_append hi lo
  rw [happend, ← Nat.shiftLeft_add_eq_or_of_lt lo.isLt, Nat.shiftLeft_eq]

@[simp] theorem indexLo_indexOf (lo hi : Word) : indexLo (indexOf lo hi) = lo :=
  BitVec.extractLsb'_append_eq_right (a := hi) (b := lo)

@[simp] theorem indexHi_indexOf (lo hi : Word) : indexHi (indexOf lo hi) = hi :=
  BitVec.extractLsb'_append_eq_left (a := hi) (b := lo)

/-- On an index given by its halves, HDEC is the transform of the two words (R41, R91). -/
@[simp] theorem hdecIndex_indexOf (lo hi : Word) : hdecIndex (indexOf lo hi) = hdecFn lo hi := by
  rw [hdecIndex, indexLo_indexOf, indexHi_indexOf]

/-! ### The ports -/

/-- `hdec` with lo in A and hi in B answers x in R0 (R100). -/
@[simp] theorem respond_hdec_r0 (f : Bool) (hi lo : Word) :
    (respond f (.hdec hi lo)).r0 = (hdecFn lo hi).1 := rfl

/-- `hdec` with lo in A and hi in B answers y in R1 (R100). -/
@[simp] theorem respond_hdec_r1 (f : Bool) (hi lo : Word) :
    (respond f (.hdec hi lo)).r1 = (hdecFn lo hi).2 := rfl

/-- `henc` answers lo, the first word of the encoding, in R0 (R101). -/
@[simp] theorem respond_henc_r0 (f : Bool) (y x : Word) : (respond f (.henc y x)).r0 = (hencFn x y).1 := rfl

/-- `henc` answers hi, the second word of the encoding, in R1 (R101). -/
@[simp] theorem respond_henc_r1 (f : Bool) (y x : Word) : (respond f (.henc y x)).r1 = (hencFn x y).2 := rfl

/-- Settles O5: the index is the concatenation of its halves, and each port carries its half. -/
theorem indexIsHighThenLow : Obligations.IndexIsHighThenLow := by
  refine fun lo hi => ⟨toNat_indexOf lo hi, indexLo_indexOf lo hi, indexHi_indexOf lo hi, fun f => ?_,
    fun f x y hlohi => ?_⟩
  · rw [hdecIndex_indexOf]
    exact ⟨respond_hdec_r0 f hi lo, respond_hdec_r1 f hi lo⟩
  · rw [respond_henc_r0, respond_henc_r1, hlohi]

end Sys2Proof.Machine
end

section
/-! PROOF. Request words: decoding an encoding, encoding a decoding, and the worked encodings
(`30_encoding.md` sections 1, 3 and 4; R50, R53, R54, R57, R61). -/

namespace Sys2Proof.Machine

/-! ### From an instruction to its word and back -/

/-- The number of a request word decodes to what the word does. -/
theorem decodeNat_toNat (w : ReqWord) : decodeNat w.toNat = .ok (decode w) := by
  have hwf : wfReqWord w.toNat = true := decide_eq_true w.isLt
  rw [decodeNat, if_pos hwf, BitVec.ofNat_toNat, BitVec.setWidth_eq]

/-- In the opcode table's numbering the five padding bits of a request word are 0 (log 13). -/
theorem decodeTableWord_toNat (w : ReqWord) : decodeTableWord 72 w.toNat = some (decode w) := by
  have hw : w.toNat < 2 ^ 72 := w.isLt.trans (by decide)
  rw [decodeTableWord, Nat.mod_eq_of_lt hw, decodeNat_toNat]
  rfl

/-- Settles O2: both decoders on numbers read the word, and the word decodes to its instruction. -/
theorem decodeOfEncode : Obligations.DecodeOfEncode := by
  intro i
  rw [decodeNat_toNat, decodeTableWord_toNat, decode_encode]
  exact ⟨rfl, rfl, rfl⟩

/-! ### From a word to its instruction and back -/

/-- A request word is made of its three fields (R50). -/
theorem packReq_fields (w : ReqWord) : packReq (reqOp w) (reqB w) (reqA w) = w := by
  refine BitVec.eq_of_getLsbD_eq fun i hi => ?_
  rw [getLsbD_packReq, reqA, reqB, reqOp]
  split
  · next hA => simp [hA]
  · next hA =>
    split
    · next hB => simp [show i - 32 < 32 by omega, show 32 + (i - 32) = i by omega]
    · next hB => simp [show i - 64 < 3 by omega, show 64 + (i - 64) = i by omega]

/-- The eight values of the OP field (R53, R54). -/
theorem opcode_cases (op : Opcode) :
    op = 0#3 ∨ op = 1#3 ∨ op = 2#3 ∨ op = 3#3 ∨ op = 4#3 ∨ op = 5#3 ∨ op = 6#3 ∨ op = 7#3 := by
  revert op
  decide

/-- The operation an opcode selects has that opcode, and keeps both operand fields (R53). -/
theorem selectOp_fields (op : Opcode) (b a : Word) : (selectOp op b a).opcode = op ∧
    (selectOp op b a).portB = b ∧ (selectOp op b a).portA = a := by
  rcases opcode_cases op with rfl | rfl | rfl | rfl | rfl | rfl | rfl | rfl <;> exact ⟨rfl, rfl, rfl⟩

/-- A decoded instruction has the fields of its word (R57). -/
theorem decode_fields (w : ReqWord) :
    (decode w).opcode = reqOp w ∧ (decode w).portB = reqB w ∧ (decode w).portA = reqA w :=
  selectOp_fields _ _ _

theorem encode_decode (w : ReqWord) : encode (decode w) = w := by
  obtain ⟨hop, hB, hA⟩ := decode_fields w
  rw [encode, hop, hB, hA, packReq_fields]

/-- The reserved operations are those with OP = 6 or 7 (R54). -/
theorem isReserved_iff_opcode (i : Instr) : i.isReserved = true ↔ 6 ≤ i.opcode.toNat := by
  cases i <;> simp [Instr.isReserved, Instr.opcode]

/-- Settles O3: a decoded instruction has the fields of its word, so it encodes to the word, and
its opcode says whether it is reserved. -/
theorem encodeOfDecode : Obligations.EncodeOfDecode := by
  intro w
  obtain ⟨hop, hB, hA⟩ := decode_fields w
  refine ⟨encode_decode w, hop, hB, hA, ?_⟩
  rw [isReserved_iff_opcode, hop, reqOp]

/-! ### The worked encodings -/

/-- Settles O1: six closed computations, and OP = 6 for any operand fields. -/
theorem workedEncodingsAssembleAndDecode : Obligations.WorkedEncodingsAssembleAndDecode := by
  refine ⟨⟨rfl, ?_⟩, ⟨rfl, ?_⟩, ⟨rfl, ?_⟩, ⟨rfl, ?_⟩, ⟨rfl, ?_⟩, ⟨rfl, ?_⟩, decode_packReq 6#3⟩ <;> decide

end Sys2Proof.Machine
end

section
/-! PROOF. The packed response: its fields, and what unpacking gives back (R51). -/

namespace Sys2Proof.Machine

/-! ### With the F64 field, 129 bits -/

theorem Response.getLsbD_pack_err (r : Response) : r.pack.getLsbD 128 = r.err := by
  change BitVec.getLsbD (w := 1 + 64 + 32 + 32) (BitVec.ofBool r.err ++ r.f64.getD 0 ++ r.r1 ++ r.r0) 128 = _
  simp only [BitVec.getLsbD_append, BitVec.getLsbD_ofBool]
  rfl

theorem Response.extractLsb'_pack_f64 (r : Response) : r.pack.extractLsb' 64 64 = r.f64.getD 0 := by
  change BitVec.extractLsb' (n := 1 + 64 + 32 + 32) 64 64 (BitVec.ofBool r.err ++ r.f64.getD 0 ++ r.r1 ++ r.r0) = _
  rw [BitVec.extractLsb'_append_eq_of_le (by decide), BitVec.extractLsb'_append_eq_of_le (by decide)]
  exact BitVec.extractLsb'_append_eq_right

theorem Response.extractLsb'_pack_r1 (r : Response) : r.pack.extractLsb' 32 32 = r.r1 := by
  change BitVec.extractLsb' (n := 1 + 64 + 32 + 32) 32 32 (BitVec.ofBool r.err ++ r.f64.getD 0 ++ r.r1 ++ r.r0) = _
  rw [BitVec.extractLsb'_append_eq_of_le (by decide)]
  exact BitVec.extractLsb'_append_eq_right

theorem Response.extractLsb'_pack_r0 (r : Response) : r.pack.extractLsb' 0 32 = r.r0 :=
  BitVec.extractLsb'_append_eq_right (a := BitVec.ofBool r.err ++ r.f64.getD 0 ++ r.r1)

/-- In a build with the F64 port, unpacking undoes packing. -/
theorem Response.unpack_pack {r : Response} {f : Double} (hf : r.f64 = some f) :
    Response.unpack true r.pack = r := by
  rw [Response.unpack, r.getLsbD_pack_err, r.extractLsb'_pack_f64, r.extractLsb'_pack_r1,
    r.extractLsb'_pack_r0, hf]
  cases r
  cases hf
  rfl

/-! ### Without it, 65 bits -/

theorem Response.getLsbD_packNoF64_err (r : Response) : r.packNoF64.getLsbD 64 = r.err := by
  change BitVec.getLsbD (w := 1 + 32 + 32) (BitVec.ofBool r.err ++ r.r1 ++ r.r0) 64 = _
  simp only [BitVec.getLsbD_append, BitVec.getLsbD_ofBool]
  rfl

theorem Response.extractLsb'_packNoF64_r1 (r : Response) : r.packNoF64.extractLsb' 32 32 = r.r1 := by
  change BitVec.extractLsb' (n := 1 + 32 + 32) 32 32 (BitVec.ofBool r.err ++ r.r1 ++ r.r0) = _
  rw [BitVec.extractLsb'_append_eq_of_le (by decide)]
  exact BitVec.extractLsb'_append_eq_right

theorem Response.extractLsb'_packNoF64_r0 (r : Response) : r.packNoF64.extractLsb' 0 32 = r.r0 :=
  BitVec.extractLsb'_append_eq_right (a := BitVec.ofBool r.err ++ r.r1)

/-- In a build without the F64 port, unpacking undoes packing. -/
theorem Response.unpackNoF64_packNoF64 {r : Response} (hf : r.f64 = none) :
    Response.unpackNoF64 r.packNoF64 = r := by
  rw [Response.unpackNoF64, r.getLsbD_packNoF64_err, r.extractLsb'_packNoF64_r1,
    r.extractLsb'_packNoF64_r0, ← hf]

/-- Settles O4: the fields by the layout of the two spellings, then both round trips. -/
theorem packedResponseRoundTrip : Obligations.PackedResponseRoundTrip := by
  refine ⟨fun r f hf => ?_, fun r hf => ?_⟩
  · exact ⟨r.getLsbD_pack_err, by rw [r.extractLsb'_pack_f64, hf, Option.getD_some],
      r.extractLsb'_pack_r1, r.extractLsb'_pack_r0, Response.unpack_pack hf⟩
  · exact ⟨r.getLsbD_packNoF64_err, r.extractLsb'_packNoF64_r1, r.extractLsb'_packNoF64_r0,
      Response.unpackNoF64_packNoF64 hf⟩

end Sys2Proof.Machine
end

section
/-! PROOF. Operand bits that an operation ignores, and the reserved opcodes (R54, R55, R121). -/

namespace Sys2Proof.Machine

open Sys2Proof.Claims

/-! ### Ignored operand bits -/

/-- Two defined operations with the same response are one operation of every state. -/
theorem exec_congr_of_respond {i j : Instr} (hi : i.isReserved = false) (hj : j.isReserved = false)
    {s : State} (h : respond s.hasF64 i = respond s.hasF64 j) : exec i s = exec j s := by
  rw [exec_defined hi, exec_defined hj, h]

/-- Interleave reads its operand's low half only (R52, R70). -/
theorem ilvResponse_congr {a a' : Word} (h : halfOperand a = halfOperand a') (f : Bool) :
    ilvResponse f a = ilvResponse f a' := by
  rw [ilvResponse, h, ilvResponse]

/-- Settles O10: the response of each of the four operations does not read the ignored bits. -/
theorem ignoredOperandBitsHaveNoEffect : Obligations.IgnoredOperandBitsHaveNoEffect := by
  refine fun b b' a a' s => ⟨fun h => ?_, ?_, ?_, ?_⟩
  · exact exec_congr_of_respond rfl rfl (ilvResponse_congr h s.hasF64)
  all_goals exact exec_congr_of_respond rfl rfl rfl

/-! ### The reserved opcodes -/

/-- The response of a reserved opcode is zeros with ERR = 1 (R121). -/
theorem illegalResponse_of_reserved {i : Instr} (h : i.isReserved = true) (f : Bool) :
    illegalResponse f i.opcode = { r0 := 0, r1 := 0, f64 := if f then some 0 else none, err := true } := by
  cases i with
  | reserved6 | reserved7 => rfl
  | ilv | dilv | gray | pscan | hdec | henc => cases h

/-- Raising ILLEGAL_OP moves the line as accepting any request does (R121). -/
theorem lineMoves_raiseIllegalOp (s : State) (op : Opcode) : LineMoves s (s.raiseIllegalOp op) :=
  lineMoves_accept s (illegalResponse s.hasF64 op)

/-- Settles O27: both opcodes raise ILLEGAL_OP, which accepts its response and sets the mark. -/
theorem reservedOpcodesAnswerIllegalOp : Obligations.ReservedOpcodesAnswerIllegalOp := by
  refine fun b a s => ⟨decode_packReq 6#3 b a, decode_packReq 7#3 b a, fun i hi => ?_⟩
  have hres : i.isReserved = true := by
    simp only [List.mem_cons, List.not_mem_nil, or_false] at hi
    rcases hi with rfl | rfl <;> rfl
  refine ⟨_, exec_reserved hres s, ?_, rfl, rfl, rfl, lineMoves_raiseIllegalOp s _⟩
  rw [State.newest_raiseIllegalOp, illegalResponse_of_reserved hres]

end Sys2Proof.Machine
end

section
/-! PROOF. The assembler: literal operands and pseudo-instructions (`30_encoding.md` section 4,
R58 to R60). -/

namespace Sys2Proof.Machine

/-! ### Literal operands of the six mnemonics -/

/-- A literal is the 32-bit field where it fits, and is refused where it does not (R59). -/
theorem wordOf_lit (env : HostEnv) (n : Nat) :
    wordOf env (.lit n) = if n < 2 ^ 32 then .ok (BitVec.ofNat 32 n) else .error .operandTooWide :=
  wordOf_of_value rfl

/-- A line with a first literal only: B is 0 (R58). -/
theorem assembleCore_lit_none (env : HostEnv) (build : Word → Word → Instr) (n : Nat) :
    assembleCore env build (.lit n) none =
      if n < 2 ^ 32 then .ok (build 0 (BitVec.ofNat 32 n)) else .error .operandTooWide := by
  have ha := wordOf_lit env n
  split
  · next hn => exact assembleCore_ok (ha.trans (if_pos hn)) rfl
  · next hn => exact assembleCore_error_first (ha.trans (if_neg hn))

/-- A line with two literals takes both where both fit, and is refused otherwise (R59). -/
theorem assembleCore_lit_lit (env : HostEnv) (build : Word → Word → Instr) (n m : Nat) :
    assembleCore env build (.lit n) (some (.lit m)) =
      if n < 2 ^ 32 ∧ m < 2 ^ 32 then .ok (build (BitVec.ofNat 32 m) (BitVec.ofNat 32 n))
      else .error .operandTooWide := by
  have ha := wordOf_lit env n
  have hb : wordOfOptional env (some (.lit m)) = _ := wordOf_lit env m
  by_cases hn : n < 2 ^ 32
  · rw [if_pos hn] at ha
    by_cases hm : m < 2 ^ 32
    · rw [if_pos ⟨hn, hm⟩]
      exact assembleCore_ok ha (hb.trans (if_pos hm))
    · rw [if_neg fun h => hm h.2]
      exact assembleCore_error_second ha (hb.trans (if_neg hm))
  · rw [if_neg fun h => hn h.1]
    exact assembleCore_error_first (ha.trans (if_neg hn))

/-! ### The literal of `hdec64` -/

/-- The low half of a number's index is the number modulo 2^32 (R41). -/
theorem indexLo_ofNat (n : Nat) : indexLo (BitVec.ofNat 64 n) = BitVec.ofNat 32 (n % 2 ^ 32) := by
  apply BitVec.eq_of_toNat_eq
  simp only [indexLo, BitVec.extractLsb'_toNat, BitVec.toNat_ofNat, Nat.shiftRight_zero]
  omega

/-- The high half of the index of a number that fits is the number divided by 2^32 (R41). -/
theorem indexHi_ofNat {n : Nat} (h : n < 2 ^ 64) :
    indexHi (BitVec.ofNat 64 n) = BitVec.ofNat 32 (n / 2 ^ 32) := by
  apply BitVec.eq_of_toNat_eq
  rw [indexHi, BitVec.extractLsb'_toNat, BitVec.toNat_ofNat, BitVec.toNat_ofNat, Nat.mod_eq_of_lt h,
    Nat.shiftRight_eq_div_pow]

/-- `hdec64` takes the halves of a literal of 64 bits, and refuses a wider one (R60, log 15). -/
theorem assembleHdec64_lit_none (env : HostEnv) (n : Nat) :
    assembleHdec64 env (.lit n) none =
      if n < 2 ^ 64 then .ok (.hdec (BitVec.ofNat 32 (n / 2 ^ 32)) (BitVec.ofNat 32 (n % 2 ^ 32)))
      else .error .operandTooWide := by
  rw [assembleHdec64, indexOperandOf_of_value (n := n) rfl]
  split
  · next hn =>
    rw [← indexLo_ofNat, ← indexHi_ofNat hn]
    rfl
  · rfl

/-- Settles O46: each of the six mnemonics assembles by `assembleCore`, and `hdec64` by its own rule. -/
theorem literalOperandsMustFit : Obligations.LiteralOperandsMustFit := by
  refine fun env n m ns => ⟨fun row hrow => ?_, assembleHdec64_lit_none env n⟩
  have hcore : ∀ o, assemble env ⟨row.1, .lit n, o, ns⟩ = assembleCore env row.2 (.lit n) o := by
    simp only [List.mem_cons, List.not_mem_nil, or_false] at hrow
    rcases hrow with rfl | rfl | rfl | rfl | rfl | rfl <;> exact fun _ => rfl
  rw [hcore, hcore]
  exact ⟨assembleCore_lit_none env row.2 n, assembleCore_lit_lit env row.2 n m⟩

/-! ### Pseudo-instructions -/

/-- The literal of `hdec64` is the two literals of its expansion (R60). -/
theorem assembleHdec64_eq_assembleCore (env : HostEnv) {n : Nat} (h : n < 2 ^ 64) :
    assembleHdec64 env (.lit n) none =
      assembleCore env .hdec (.lit (n % 2 ^ 32)) (some (.lit (n / 2 ^ 32))) := by
  have hfit : n % 2 ^ 32 < 2 ^ 32 ∧ n / 2 ^ 32 < 2 ^ 32 := by omega
  rw [assembleHdec64_lit_none, if_pos h, assembleCore_lit_lit, if_pos hfit]

/-- `henc` with one name binds the number of the index that the response carries (R41, R60, log 15). -/
theorem bindResults_henc_one (env : HostEnv) (x : Operand) (y : Option Operand) (n64 : Name) (r : Response) :
    bindResults env ⟨.henc, x, y, [n64]⟩ r = .ok ((n64, (indexOf r.r0 r.r1).toNat) :: env) := rfl

/-- Settles O45: the one-operand expansions are the same line, and `hdec64` and `henc` go by the
halves of an index. -/
theorem pseudoInstructionsExpand : Obligations.PseudoInstructionsExpand := by
  refine ⟨fun env a ns => ⟨rfl, rfl, rfl, rfl⟩, fun env n ns h => ?_, fun env x y n64 r => ?_⟩
  · exact assembleHdec64_eq_assembleCore env h
  · rw [bindResults_henc_one, toNat_indexOf]

end Sys2Proof.Machine
end

section
/-! PROOF. The bit primitives: what the four operations answer, and their laws
(`40_bit_primitives.md`, R70 to R77). -/

namespace Sys2Proof.Machine

open Sys2Proof.Claims

/-! ### What a single-result operation answers -/

/-- A defined operation answers with its transaction-level response (R19, R143). -/
theorem answers_of_defined {i : Instr} (h : i.isReserved = false) (s : State) :
    Answers i s (respond s.hasF64 i) :=
  ⟨s.accept (respond s.hasF64 i), exec_defined h s, s.newest_accept _⟩

/-- A single-result response of a defined opcode is zero outside R0 (R52). -/
theorem zeroFill_respondOne (s : State) {op : Opcode} (hop : errFlag op = false) (v : Word) :
    ZeroFill s (respondOne s.hasF64 op v) :=
  ⟨rfl, rfl, hop⟩

/-! ### Bits of operands and words -/

/-- Interleave's operand has the low 16 bits of A (R52). -/
theorem getLsbD_halfOperand (a : Word) {i : Nat} (hi : i < 16) : (halfOperand a).getLsbD i = a.getLsbD i := by
  simp [halfOperand, hi]

/-- Zero extension adds zeros above a half's bits (R11). -/
theorem getLsbD_zextHalf (h : Half) (i : Nat) : (zextHalf h).getLsbD i = h.getLsbD i := by
  rw [zextHalf, BitVec.getLsbD_setWidth, Bool.and_eq_right_iff_imp, decide_eq_true_eq]
  exact fun hbit => (BitVec.lt_of_getLsbD hbit).trans (by decide)

/-- A word is determined by its even-indexed and its odd-indexed bits. -/
theorem word_eq_of_even_odd_bits {v w : Word} (heven : ∀ i < 16, v.getLsbD (2 * i) = w.getLsbD (2 * i))
    (hodd : ∀ i < 16, v.getLsbD (2 * i + 1) = w.getLsbD (2 * i + 1)) : v = w := by
  refine BitVec.eq_of_getLsbD_eq fun i hi => ?_
  obtain ⟨k, rfl | rfl⟩ := i.even_or_odd'
  · exact heven k (by omega)
  · exact hodd k (by omega)

/-! ### Interleave and Deinterleave -/

/-- Settles O6: each bit of R0 by the bits of ILV16 and of its operand. -/
theorem interleaveSpreadsBits : Obligations.InterleaveSpreadsBits := by
  refine fun b a s => ⟨decode_packReq 0#3 b a, _, answers_of_defined rfl s, zeroFill_respondOne s rfl _,
    fun i hi => ?_⟩
  obtain ⟨heven, hodd⟩ := getLsbD_ilv16 (halfOperand a) hi
  exact ⟨heven.trans (getLsbD_halfOperand a hi), hodd⟩

/-- Settles O7: R0 is the zero extension of DILV16. -/
theorem deinterleavePacksEvenBits : Obligations.DeinterleavePacksEvenBits := by
  refine fun b a s => ⟨decode_packReq 1#3 b a, _, answers_of_defined rfl s, zeroFill_respondOne s rfl _,
    fun i hi => ?_, fun i hi => ?_⟩
  · exact (getLsbD_zextHalf (dilv16 a) i).trans (getLsbD_dilv16 a hi)
  · exact (getLsbD_zextHalf (dilv16 a) i).trans (BitVec.getLsbD_of_ge _ i hi)

/-- Deinterleave undoes Interleave (R73). -/
theorem dilv16_ilv16 (t : Half) : dilv16 (ilv16 t) = t :=
  BitVec.eq_of_getLsbD_eq fun _ hi => (getLsbD_dilv16 _ hi).trans (getLsbD_ilv16 t hi).1

/-- The mask 0x55555555 selects the even-indexed bits (R73). -/
theorem getLsbD_evenMask : ∀ i < 16, (0x55555555#32).getLsbD (2 * i) = true ∧
    (0x55555555#32).getLsbD (2 * i + 1) = false := by
  decide

/-- Interleave after Deinterleave keeps the even-indexed bits and clears the others (R73). -/
theorem ilv16_dilv16 (v : Word) : ilv16 (dilv16 v) = v &&& 0x55555555#32 := by
  refine word_eq_of_even_odd_bits (fun i hi => ?_) (fun i hi => ?_)
  · rw [(getLsbD_ilv16 _ hi).1, getLsbD_dilv16 v hi, BitVec.getLsbD_and, (getLsbD_evenMask i hi).1, Bool.and_true]
  · rw [(getLsbD_ilv16 _ hi).2, BitVec.getLsbD_and, (getLsbD_evenMask i hi).2, Bool.and_false]

/-- Settles O12, bit by bit. -/
theorem deinterleaveInvertsInterleave : Obligations.DeinterleaveInvertsInterleave :=
  ⟨dilv16_ilv16, ilv16_dilv16⟩

/-- The image of ILV16 is the words whose odd-indexed bits are 0 (R71). -/
theorem exists_ilv16_eq_iff (w : Word) : (∃ t, ilv16 t = w) ↔ ∀ i < 16, w.getLsbD (2 * i + 1) = false := by
  constructor
  · rintro ⟨t, rfl⟩ i hi
    exact (getLsbD_ilv16 t hi).2
  · refine fun hodd => ⟨dilv16 w, word_eq_of_even_odd_bits (fun i hi => ?_) (fun i hi => ?_)⟩
    · rw [(getLsbD_ilv16 _ hi).1, getLsbD_dilv16 w hi]
    · rw [(getLsbD_ilv16 _ hi).2, hodd i hi]

/-- Interleave distributes over OR (R71). -/
theorem ilv16_or (p q : Half) : ilv16 (p ||| q) = ilv16 p ||| ilv16 q := by
  refine word_eq_of_even_odd_bits (fun i hi => ?_) (fun i hi => ?_) <;>
    simp only [BitVec.getLsbD_or, getLsbD_ilv16 _ hi, Bool.or_false]

/-- Interleave distributes over AND (R71). -/
theorem ilv16_and (p q : Half) : ilv16 (p &&& q) = ilv16 p &&& ilv16 q := by
  refine word_eq_of_even_odd_bits (fun i hi => ?_) (fun i hi => ?_) <;>
    simp only [BitVec.getLsbD_and, getLsbD_ilv16 _ hi, Bool.and_false]

/-- Settles O11: injectivity by the left inverse DILV16, the rest bit by bit. -/
theorem interleaveLaws : Obligations.InterleaveLaws :=
  ⟨fun _ _ h => Function.LeftInverse.injective dilv16_ilv16 h, exists_ilv16_eq_iff,
    fun p q => (ilv16_or p q).symm, fun p q => (ilv16_and p q).symm⟩

/-! ### GrayCode and PrefixScan -/

/-- Settles O8: bit 31 has no upper neighbour. -/
theorem grayCodeXorsNeighbours : Obligations.GrayCodeXorsNeighbours := by
  refine fun b a s => ⟨decode_packReq 2#3 b a, _, answers_of_defined rfl s, zeroFill_respondOne s rfl _,
    ?_, fun i _ => getLsbD_gray32 a i⟩
  have htop : a.getLsbD 32 = false := BitVec.getLsbD_of_ge a 32 le_rfl
  exact (getLsbD_gray32 a 31).trans (by rw [htop, Bool.xor_false])

/-- The parity from bit `i` up is bit `i` and the parity from the next bit up (R75). -/
theorem parityFrom_eq_xor (p : Nat → Bool) {i : Nat} (hi : i < 32) :
    parityFrom p i = (p i ^^ parityFrom p (i + 1)) := by
  have hlen : 32 - i = (32 - (i + 1)) + 1 := by omega
  simp only [parityFrom, hlen, List.range_succ_eq_map, List.foldr_cons, List.foldr_map, Nat.add_zero,
    Nat.succ_eq_add_one, Nat.add_assoc, Nat.add_comm 1]

/-- The closed form of PSCAN32: both sides are 0 above bit 31 and obey one recurrence below (R75). -/
theorem getLsbD_pscan32_eq_parityFrom (v : Word) {i : Nat} (hi : i ≤ 32) :
    (pscan32 v).getLsbD i = parityFrom v.getLsbD i := by
  induction hi using Nat.decreasingInduction with
  | self => exact BitVec.getLsbD_of_ge _ 32 le_rfl
  | of_succ i hi ih => rw [getLsbD_pscan32, ih, parityFrom_eq_xor _ hi]

/-- Settles O9, from the top bit down. -/
theorem prefixScanIsParityFromAbove : Obligations.PrefixScanIsParityFromAbove :=
  fun b a s => ⟨decode_packReq 3#3 b a, _, answers_of_defined rfl s, zeroFill_respondOne s rfl _,
    fun _ hi => getLsbD_pscan32_eq_parityFrom a hi.le⟩

/-- Neighbouring bits of PSCAN32 differ by the operand's bit, so GRAY32 gives the operand back (R77). -/
theorem gray32_pscan32 (t : Word) : gray32 (pscan32 t) = t := by
  refine BitVec.eq_of_getLsbD_eq fun i _ => ?_
  rw [getLsbD_gray32, getLsbD_pscan32, Bool.xor_assoc, Bool.xor_self, Bool.xor_false]

/-- GRAY32 is onto, and there are finitely many words (R77). -/
theorem gray32_bijective : Function.Bijective gray32 :=
  (Function.RightInverse.surjective gray32_pscan32).bijective_of_finite

theorem pscan32_gray32 (t : Word) : pscan32 (gray32 t) = t :=
  gray32_bijective.injective (gray32_pscan32 (gray32 t))

/-- Settles O13: PSCAN32 is a right inverse of the bijection GRAY32, and so its inverse. -/
theorem prefixScanInvertsGrayCode : Obligations.PrefixScanInvertsGrayCode :=
  ⟨pscan32_gray32, gray32_pscan32, gray32_bijective⟩

/-- Two PrefixScan steps commute: a step is linear, and shifts add up in either order (R76). -/
theorem pscanStep_comm (v : Word) (j k : Nat) :
    pscanStep (pscanStep v j) k = pscanStep (pscanStep v k) j := by
  simp only [pscanStep, BitVec.ushiftRight_xor_distrib, ← BitVec.shiftRight_add, BitVec.xor_assoc]
  rw [← BitVec.xor_assoc (v >>> j), BitVec.xor_comm (v >>> j), BitVec.xor_assoc, Nat.add_comm j k]

/-- Settles O14: PSCAN32 folds the steps over one order, and steps commute. -/
theorem prefixScanStepsCommute : Obligations.PrefixScanStepsCommute := by
  intro ks v hperm
  have hcomm : RightCommutative pscanStep := ⟨pscanStep_comm⟩
  exact hperm.foldl_eq v

end Sys2Proof.Machine
end

section
/-! PROOF. CurveDecode bit by bit: the planes of an index, the packing of two planes, and how x and
y follow from the planes from the top bit down (`41_hilbert_curve.md`, R90 to R92, R98, R100). -/

namespace Sys2Proof.Machine

open Sys2Proof.Claims

/-! ### The planes -/

/-- Two halves in one word: the low half's bits, then the high half's. -/
theorem getLsbD_joinHalves (h l : Half) {j : Nat} (hj : j < 32) :
    (zextHalf h <<< 16 ||| zextHalf l).getLsbD j = if j < 16 then l.getLsbD j else h.getLsbD (j - 16) := by
  rw [BitVec.getLsbD_or, BitVec.getLsbD_shiftLeft, getLsbD_zextHalf, getLsbD_zextHalf]
  split
  · next h16 => simp [h16]
  · next h16 => simp [hj, h16, BitVec.getLsbD_of_ge l j (Nat.le_of_not_lt h16)]

/-- Bit j of the plane `odd` is index bit 2j (R90). -/
theorem getLsbD_oddPlane (lo hi : Word) {j : Nat} (hj : j < 32) :
    (oddPlane lo hi).getLsbD j = (indexOf lo hi).getLsbD (2 * j) := by
  rw [oddPlane, getLsbD_joinHalves _ _ hj, getLsbD_indexOf]
  by_cases h16 : j < 16
  · rw [if_pos h16, if_pos (by omega), getLsbD_dilv16 _ h16]
  · rw [if_neg h16, if_neg (by omega), getLsbD_dilv16 _ (by omega), Nat.mul_sub]

/-- Bit j of the plane `even` is index bit 2j + 1 (R90). -/
theorem getLsbD_evenPlane (lo hi : Word) {j : Nat} (hj : j < 32) :
    (evenPlane lo hi).getLsbD j = (indexOf lo hi).getLsbD (2 * j + 1) := by
  rw [evenPlane, getLsbD_joinHalves _ _ hj, getLsbD_indexOf]
  by_cases h16 : j < 16
  · rw [if_pos h16, if_pos (by omega), getLsbD_dilv16 _ h16, BitVec.getLsbD_ushiftRight, Nat.add_comm]
  · rw [if_neg h16, if_neg (by omega), getLsbD_dilv16 _ (by omega), BitVec.getLsbD_ushiftRight]
    congr 1
    omega

/-- The plane `odd` is x ^ y, by step 3 of CurveDecode (R92). -/
theorem hdecFn_fst_xor_snd (lo hi : Word) : (hdecFn lo hi).1 ^^^ (hdecFn lo hi).2 = oddPlane lo hi := by
  rw [hdecFn, ← BitVec.xor_assoc, BitVec.xor_self, BitVec.zero_xor]

/-! ### Packing two planes -/

/-- ILV16 shifted left by one has its operand's bits at the odd positions (R98). -/
theorem getLsbD_ilv16_shiftLeft_one (e : Half) {i : Nat} (hi : i < 16) :
    (ilv16 e <<< 1).getLsbD (2 * i) = false ∧ (ilv16 e <<< 1).getLsbD (2 * i + 1) = e.getLsbD i := by
  rw [BitVec.getLsbD_shiftLeft, BitVec.getLsbD_shiftLeft]
  constructor
  · cases i with
    | zero => simp
    | succ i => rw [Nat.mul_succ, Nat.add_succ_sub_one, (getLsbD_ilv16 e (by omega)).2, Bool.and_false]
  · rw [Nat.add_sub_cancel, (getLsbD_ilv16 e hi).1]
    simp [show 2 * i + 1 < 32 by omega]

/-- A doubled ILV16 and an ILV16 have no bit in common, so their sum does not carry (R98). -/
theorem packHalf_eq_or (e o : Half) : packHalf e o = ilv16 e <<< 1 ||| ilv16 o := by
  have hdouble : ilv16 e * 2#32 = ilv16 e <<< 1 := by
    rw [BitVec.shiftLeft_eq_mul_twoPow]
    rfl
  rw [packHalf, hdouble]
  refine BitVec.add_eq_or_of_and_eq_zero _ _ (word_eq_of_even_odd_bits (fun i hi => ?_) (fun i hi => ?_))
  · rw [BitVec.getLsbD_and, (getLsbD_ilv16_shiftLeft_one e hi).1, Bool.false_and, BitVec.getLsbD_zero]
  · rw [BitVec.getLsbD_and, (getLsbD_ilv16 o hi).2, Bool.and_false, BitVec.getLsbD_zero]

/-- Packing puts `odd` at the even and `even` at the odd bit positions (R98). -/
theorem getLsbD_packHalf (e o : Half) {i : Nat} (hi : i < 16) :
    (packHalf e o).getLsbD (2 * i) = o.getLsbD i ∧ (packHalf e o).getLsbD (2 * i + 1) = e.getLsbD i := by
  simp only [packHalf_eq_or, BitVec.getLsbD_or, getLsbD_ilv16_shiftLeft_one e hi, getLsbD_ilv16 o hi,
    Bool.false_or, Bool.or_false, and_self]

/-- Settles O19: the sum is an OR, whose bits are those of the two operands of ILV16. -/
theorem packingNeverCarries : Obligations.PackingNeverCarries :=
  fun e o => ⟨packHalf_eq_or e o, fun _ => getLsbD_packHalf e o⟩

/-! ### The state of the decoder -/

/-- Per position, whether the positions from there up at which both planes are 0 are odd in number. -/
def zeroParity (odd even : Word) : Word := pscan32 (~~~(odd ||| even))

/-- Per position, whether the positions from there up at which both planes are 1 are odd in number. -/
def oneParity (odd even : Word) : Word := pscan32 (odd &&& even)

theorem getLsbD_zeroParity (odd even : Word) {j : Nat} (hj : j < 32) : (zeroParity odd even).getLsbD j =
    (!(odd.getLsbD j || even.getLsbD j) ^^ (zeroParity odd even).getLsbD (j + 1)) := by
  rw [zeroParity, getLsbD_pscan32, BitVec.getLsbD_not, BitVec.getLsbD_or, decide_eq_true hj, Bool.true_and]

theorem getLsbD_oneParity (odd even : Word) (j : Nat) : (oneParity odd even).getLsbD j =
    ((odd.getLsbD j && even.getLsbD j) ^^ (oneParity odd even).getLsbD (j + 1)) := by
  rw [oneParity, getLsbD_pscan32, BitVec.getLsbD_and]

theorem hdecX_eq (odd even : Word) :
    hdecX odd even = (odd &&& zeroParity odd even) ^^^ (~~~odd &&& oneParity odd even) ^^^ even := rfl

/-- Bit j of x needs the parities of the positions above j only: where one of them counts position
j itself, its mask is 0 there (R91). -/
theorem getLsbD_hdecX (odd even : Word) {j : Nat} (hj : j < 32) : (hdecX odd even).getLsbD j =
    (even.getLsbD j ^^ if odd.getLsbD j then (zeroParity odd even).getLsbD (j + 1)
      else (oneParity odd even).getLsbD (j + 1)) := by
  rw [hdecX_eq, BitVec.getLsbD_xor, BitVec.getLsbD_xor, BitVec.getLsbD_and, BitVec.getLsbD_and, BitVec.getLsbD_not,
    getLsbD_zeroParity _ _ hj, getLsbD_oneParity]
  cases odd.getLsbD j <;> simp [hj, Bool.xor_comm]

/-- Bit j of x and y, from the two index bits of the position and the parities of those above. -/
theorem getLsbD_hdecFn (lo hi : Word) {j : Nat} (hj : j < 32) :
    (hdecFn lo hi).1.getLsbD j = ((indexOf lo hi).getLsbD (2 * j + 1) ^^
      if (indexOf lo hi).getLsbD (2 * j) then (zeroParity (oddPlane lo hi) (evenPlane lo hi)).getLsbD (j + 1)
      else (oneParity (oddPlane lo hi) (evenPlane lo hi)).getLsbD (j + 1)) ∧
    (hdecFn lo hi).2.getLsbD j = ((hdecFn lo hi).1.getLsbD j ^^ (indexOf lo hi).getLsbD (2 * j)) := by
  rw [← getLsbD_oddPlane lo hi hj, ← getLsbD_evenPlane lo hi hj]
  exact ⟨getLsbD_hdecX _ _ hj, BitVec.getLsbD_xor⟩

/-- Settles O18: the masks `odd` and `~odd` share no bit. -/
theorem curveDecodePlanes : Obligations.CurveDecodePlanes := by
  refine fun lo hi => ⟨fun j hj => ⟨getLsbD_oddPlane lo hi hj, getLsbD_evenPlane lo hi hj⟩, fun odd even => ?_,
    (hdecFn_fst_xor_snd lo hi).symm⟩
  rw [hdecX]
  congr 1
  refine BitVec.eq_of_getLsbD_eq fun j hj => ?_
  simp only [BitVec.getLsbD_xor, BitVec.getLsbD_or, BitVec.getLsbD_and, BitVec.getLsbD_not]
  cases odd.getLsbD j <;> simp

/-- The parity from a position up depends on the bits below position 32 only. -/
theorem parityFrom_congr {p q : Nat → Bool} (h : ∀ i < 32, p i = q i) {i : Nat} (hi : i ≤ 32) :
    parityFrom p i = parityFrom q i := by
  induction hi using Nat.decreasingInduction with
  | self => rfl
  | of_succ i hi ih => rw [parityFrom_eq_xor p hi, parityFrom_eq_xor q hi, h i hi, ih]

/-- On the planes of an index, `zeroParity` is a parity of index bits (R75, R90). -/
theorem getLsbD_zeroParity_planes (lo hi : Word) {j : Nat} (hj : j < 32) :
    (zeroParity (oddPlane lo hi) (evenPlane lo hi)).getLsbD j = parityFrom (fun k =>
      !((indexOf lo hi).getLsbD (2 * k) || (indexOf lo hi).getLsbD (2 * k + 1))) j := by
  rw [zeroParity, getLsbD_pscan32_eq_parityFrom _ hj.le]
  refine parityFrom_congr (fun k hk => ?_) hj.le
  rw [BitVec.getLsbD_not, BitVec.getLsbD_or, getLsbD_oddPlane lo hi hk, getLsbD_evenPlane lo hi hk,
    decide_eq_true hk, Bool.true_and]

/-- On the planes of an index, `oneParity` is a parity of index bits (R75, R90). -/
theorem getLsbD_oneParity_planes (lo hi : Word) {j : Nat} (hj : j < 32) :
    (oneParity (oddPlane lo hi) (evenPlane lo hi)).getLsbD j = parityFrom (fun k =>
      (indexOf lo hi).getLsbD (2 * k) && (indexOf lo hi).getLsbD (2 * k + 1)) j := by
  rw [oneParity, getLsbD_pscan32_eq_parityFrom _ hj.le]
  refine parityFrom_congr (fun k hk => ?_) hj.le
  rw [BitVec.getLsbD_and, getLsbD_oddPlane lo hi hk, getLsbD_evenPlane lo hi hk]

/-- Settles O16: the bits of steps 2 and 3, with the planes as index bits and PSCAN32 as parity. -/
theorem curveDecodeBits : Obligations.CurveDecodeBits := by
  refine fun hi lo s => ⟨decode_packReq 4#3 hi lo, _, answers_of_defined rfl s, rfl, rfl, fun j hj => ⟨?_, ?_⟩⟩
  · change (hdecX (oddPlane lo hi) (evenPlane lo hi)).getLsbD j = _
    simp only [hdecX_eq, BitVec.getLsbD_xor, BitVec.getLsbD_and, BitVec.getLsbD_not, getLsbD_zeroParity_planes lo hi hj,
      getLsbD_oneParity_planes lo hi hj, getLsbD_oddPlane lo hi hj, getLsbD_evenPlane lo hi hj, hj, decide_true,
      Bool.true_and]
  · change ((hdecFn lo hi).1 ^^^ oddPlane lo hi).getLsbD j = _
    rw [BitVec.getLsbD_xor, getLsbD_oddPlane lo hi hj]
    rfl

end Sys2Proof.Machine
end

section
/-! PROOF. CurveEncode inverts CurveDecode (R93 to R98, R102).  The two parities of the decoder obey
a linear recurrence over GF(2) from the top bit down.  A round of the encoder doubles the number of
positions that its values span, and after the last round they span all 32. -/

namespace Sys2Proof.Machine

/-! ### What a round spans -/

/-- The values `w` span `k` positions of the recurrence whose solution is (q, p): at every position
(q, p) is (a, b), and the matrix [[c ^ d, d], [d, c]] times (q, p) at the position `k` higher. -/
def Rounds.Spans (w : Rounds) (k : Nat) (q p : Word) : Prop := ∀ j,
  q.getLsbD j = (w.a.getLsbD j ^^ (w.d.getLsbD j && p.getLsbD (j + k)) ^^
    ((w.c.getLsbD j ^^ w.d.getLsbD j) && q.getLsbD (j + k))) ∧
  p.getLsbD j = (w.b.getLsbD j ^^ (w.c.getLsbD j && p.getLsbD (j + k)) ^^
    (w.d.getLsbD j && q.getLsbD (j + k)))

theorem getLsbD_hencA (w : Rounds) (k j : Nat) : (hencA w k).getLsbD j =
    (w.a.getLsbD j ^^ (w.d.getLsbD j && w.b.getLsbD (j + k)) ^^
      ((w.c.getLsbD j ^^ w.d.getLsbD j) && w.a.getLsbD (j + k))) := by
  simp only [hencA, BitVec.getLsbD_xor, BitVec.getLsbD_and, BitVec.getLsbD_ushiftRight, Nat.add_comm k]

theorem getLsbD_hencB (w : Rounds) (k j : Nat) : (hencB w k).getLsbD j =
    (w.b.getLsbD j ^^ (w.c.getLsbD j && w.b.getLsbD (j + k)) ^^ (w.d.getLsbD j && w.a.getLsbD (j + k))) := by
  simp only [hencB, BitVec.getLsbD_xor, BitVec.getLsbD_and, BitVec.getLsbD_ushiftRight, Nat.add_comm k]

theorem getLsbD_hencRound_c (w : Rounds) (k j : Nat) : (hencRound w k).c.getLsbD j =
    ((w.c.getLsbD j && w.c.getLsbD (j + k)) ^^ (w.d.getLsbD j && w.d.getLsbD (j + k))) := by
  simp only [hencRound, BitVec.getLsbD_xor, BitVec.getLsbD_and, BitVec.getLsbD_ushiftRight, Nat.add_comm k]

theorem getLsbD_hencRound_d (w : Rounds) (k j : Nat) : (hencRound w k).d.getLsbD j =
    ((w.c.getLsbD j && w.d.getLsbD (j + k)) ^^
      (w.d.getLsbD j && (w.c.getLsbD (j + k) ^^ w.d.getLsbD (j + k)))) := by
  simp only [hencRound, BitVec.getLsbD_xor, BitVec.getLsbD_and, BitVec.getLsbD_ushiftRight, Nat.add_comm k]

/-- The product of two matrices [[c ^ d, d], [d, c]] over GF(2) has the same shape, with the c and d
of a round (R96). -/
theorem roundMatrix_mul (a b c d a' b' c' d' q p : Bool) :
    (a ^^ (d && (b' ^^ (c' && p) ^^ (d' && q))) ^^ ((c ^^ d) && (a' ^^ (d' && p) ^^ ((c' ^^ d') && q)))) =
      ((a ^^ (d && b') ^^ ((c ^^ d) && a')) ^^ (((c && d') ^^ (d && (c' ^^ d'))) && p) ^^
        ((((c && c') ^^ (d && d')) ^^ ((c && d') ^^ (d && (c' ^^ d')))) && q)) ∧
    (b ^^ (c && (b' ^^ (c' && p) ^^ (d' && q))) ^^ (d && (a' ^^ (d' && p) ^^ ((c' ^^ d') && q)))) =
      ((b ^^ (c && b') ^^ (d && a')) ^^ (((c && c') ^^ (d && d')) && p) ^^
        (((c && d') ^^ (d && (c' ^^ d'))) && q)) := by
  revert a b c d a' b' c' d' q p
  decide

/-- A round at shift width `k` doubles a span of `k` positions (R96). -/
theorem Rounds.Spans.round {w : Rounds} {k : Nat} {q p : Word} (h : w.Spans k q p) :
    (hencRound w k).Spans (k + k) q p := by
  intro j
  obtain ⟨hq, hp⟩ := h j
  obtain ⟨hq', hp'⟩ := h (j + k)
  obtain ⟨hmulq, hmulp⟩ := roundMatrix_mul (w.a.getLsbD j) (w.b.getLsbD j) (w.c.getLsbD j) (w.d.getLsbD j)
    (w.a.getLsbD (j + k)) (w.b.getLsbD (j + k)) (w.c.getLsbD (j + k)) (w.d.getLsbD (j + k))
    (q.getLsbD (j + k + k)) (p.getLsbD (j + k + k))
  rw [← Nat.add_assoc, getLsbD_hencRound_c, getLsbD_hencRound_d]
  change _ = ((hencA w k).getLsbD j ^^ _ ^^ _) ∧ _ = ((hencB w k).getLsbD j ^^ _ ^^ _)
  rw [getLsbD_hencA, getLsbD_hencB, hq, hp, hq', hp']
  exact ⟨hmulq, hmulp⟩

/-- Values that span all positions are the solution: nothing stands above bit 31. -/
theorem Rounds.Spans.eq_of_ge {w : Rounds} {k : Nat} {q p : Word} (h : w.Spans k q p) (hk : 32 ≤ k) :
    w.a = q ∧ w.b = p := by
  constructor <;> refine BitVec.eq_of_getLsbD_eq fun j _ => ?_
  all_goals
    obtain ⟨hq, hp⟩ := h j
    rw [BitVec.getLsbD_of_ge q _ (hk.trans (Nat.le_add_left k j)),
      BitVec.getLsbD_of_ge p _ (hk.trans (Nat.le_add_left k j))] at hq hp
    simp [hq, hp]

/-! ### The recurrence and the first round -/

/-- (q, p) solves the recurrence with terms (a, b): at every position (q, p) is (a, b), and the
matrix [[1, odd], [~odd, 1]] times (q, p) at the next position up. -/
structure Solves (odd a b q p : Word) : Prop where
  q_eq : ∀ j < 32, q.getLsbD j = (a.getLsbD j ^^ q.getLsbD (j + 1) ^^ (odd.getLsbD j && p.getLsbD (j + 1)))
  p_eq : ∀ j < 32, p.getLsbD j = (b.getLsbD j ^^ p.getLsbD (j + 1) ^^ (!odd.getLsbD j && q.getLsbD (j + 1)))

/-- The product of two matrices [[1, odd], [~odd, 1]] over GF(2) has the c and d of round 1 (R95). -/
theorem firstMatrix_mul (a b o a' b' o' q p : Bool) :
    (a ^^ (a' ^^ q ^^ (o' && p)) ^^ (o && (b' ^^ p ^^ (!o' && q)))) =
      ((a ^^ a' ^^ (o && b')) ^^ ((o ^^ o') && p) ^^ (((o || !o') ^^ (o ^^ o')) && q)) ∧
    (b ^^ (b' ^^ p ^^ (!o' && q)) ^^ (!o && (a' ^^ q ^^ (o' && p)))) =
      ((b ^^ b' ^^ (!o && a')) ^^ ((o || !o') && p) ^^ ((o ^^ o') && q)) := by
  revert a b o a' b' o' q p
  decide

/-- Round 1 spans two positions (R95).  At bit 31 its c is not that of a product, but meets zeros. -/
theorem Solves.first {odd a b q p : Word} (h : Solves odd a b q p) : (hencFirst odd a b).Spans 2 q p := by
  have hhigh : ∀ (v : Word) {i : Nat}, 32 ≤ i → v.getLsbD i = false := fun v i hi => v.getLsbD_of_ge i hi
  intro j
  simp only [hencFirst, BitVec.getLsbD_xor, BitVec.getLsbD_or, BitVec.getLsbD_and, BitVec.getLsbD_not,
    BitVec.getLsbD_ushiftRight, Nat.add_comm 1]
  rcases lt_trichotomy j 31 with hj | rfl | hj
  · rw [h.q_eq j (by omega), h.p_eq j (by omega), h.q_eq (j + 1) (by omega), h.p_eq (j + 1) (by omega),
      decide_eq_true (show j < 32 by omega), decide_eq_true (show j + 1 < 32 by omega)]
    simp only [Bool.true_and]
    exact firstMatrix_mul ..
  · rw [h.q_eq 31 (by decide), h.p_eq 31 (by decide)]
    simp only [hhigh _ (show 32 ≤ 31 + 1 from le_rfl), hhigh _ (show 32 ≤ 31 + 2 by decide), Bool.and_false,
      Bool.xor_false, and_self]
  · simp only [hhigh _ (show 32 ≤ j from hj), hhigh _ (Nat.le_add_right_of_le hj : 32 ≤ j + 1),
      hhigh _ (Nat.le_add_right_of_le hj : 32 ≤ j + 2), Bool.and_false, Bool.xor_false, and_self]

/-- The five rounds solve the recurrence of their initial values (R94 to R97). -/
theorem Solves.hencRounds {x y q p : Word} (h : Solves (x ^^^ y) (x &&& ~~~y) (~~~(x ||| y)) q p) :
    (hencRounds x y).a = q ∧ (hencRounds x y).b = p :=
  h.first.round.round.round.round.eq_of_ge le_rfl

/-! ### The decoder solves the encoder's recurrence -/

/-- With the parities (q, p) from above, x and `odd` tell whether both planes are 1, or both 0. -/
theorem bothOne_bothZero_of_x (o e q p : Bool) :
    ((o && e) ^^ q) = (((e ^^ if o then p else q) && o) ^^ q ^^ (o && p)) ∧
      (!(o || e) ^^ p) = (!((e ^^ if o then p else q) || o) ^^ p ^^ (!o && q)) := by
  revert o e q p
  decide

/-- The parities of the decoder solve the recurrence of the encoder, for the coordinates it answers. -/
theorem solves_parities (odd even : Word) :
    Solves odd (hdecX odd even &&& odd) (~~~(hdecX odd even ||| odd)) (oneParity odd even) (zeroParity odd even) := by
  constructor <;> intro j hj
  · rw [BitVec.getLsbD_and, getLsbD_hdecX _ _ hj, getLsbD_oneParity]
    exact (bothOne_bothZero_of_x ..).1
  · rw [BitVec.getLsbD_not, BitVec.getLsbD_or, getLsbD_hdecX _ _ hj, getLsbD_zeroParity _ _ hj, decide_eq_true hj,
      Bool.true_and]
    exact (bothOne_bothZero_of_x ..).2

/-- The initial values of the encoder in terms of x and `odd` (R94). -/
theorem and_not_xor_self (x odd : Word) : x &&& ~~~(x ^^^ odd) = x &&& odd := by
  refine BitVec.eq_of_getLsbD_eq fun j hj => ?_
  simp only [BitVec.getLsbD_and, BitVec.getLsbD_not, BitVec.getLsbD_xor, hj, decide_true, Bool.true_and]
  cases x.getLsbD j <;> simp

theorem or_xor_self (x odd : Word) : x ||| (x ^^^ odd) = x ||| odd := by
  refine BitVec.eq_of_getLsbD_eq fun j _ => ?_
  simp only [BitVec.getLsbD_or, BitVec.getLsbD_xor]
  cases x.getLsbD j <;> simp

theorem xor_xor_self (x odd : Word) : x ^^^ (x ^^^ odd) = odd := by
  rw [← BitVec.xor_assoc, BitVec.xor_self, BitVec.zero_xor]

/-- GrayCode undoes the PrefixScan of both parities, and the second plane is left (R77, R98). -/
theorem hencEven_hdecX (odd even : Word) : hencEven (hdecX odd even) (hdecX odd even ^^^ odd) = even := by
  have hsolves : Solves (hdecX odd even ^^^ (hdecX odd even ^^^ odd)) (hdecX odd even &&& ~~~(hdecX odd even ^^^ odd))
      (~~~(hdecX odd even ||| (hdecX odd even ^^^ odd))) (oneParity odd even) (zeroParity odd even) := by
    rw [xor_xor_self, and_not_xor_self, or_xor_self]
    exact solves_parities odd even
  rw [hencEven, hsolves.hencRounds.1, hsolves.hencRounds.2, xor_xor_self, oneParity, zeroParity, gray32_pscan32,
    gray32_pscan32]
  refine BitVec.eq_of_getLsbD_eq fun j hj => ?_
  simp only [BitVec.getLsbD_or, BitVec.getLsbD_and, BitVec.getLsbD_not, hj, decide_true, Bool.true_and]
  cases odd.getLsbD j <;> cases even.getLsbD j <;> rfl

/-! ### The two transforms -/

theorem getLsbD_lowHalf (v : Word) {i : Nat} (hi : i < 16) : (lowHalf v).getLsbD i = v.getLsbD i := by
  simp [lowHalf, hi]

theorem getLsbD_highHalf (v : Word) {i : Nat} (hi : i < 16) : (highHalf v).getLsbD i = v.getLsbD (16 + i) := by
  simp [highHalf, hi]

/-- Packing the low halves of the two planes gives the low half of the index back (R90, R98). -/
theorem packHalf_lowHalf_planes (lo hi : Word) :
    packHalf (lowHalf (evenPlane lo hi)) (lowHalf (oddPlane lo hi)) = lo := by
  refine word_eq_of_even_odd_bits (fun i hi16 => ?_) (fun i hi16 => ?_)
  · rw [(getLsbD_packHalf _ _ hi16).1, getLsbD_lowHalf _ hi16, getLsbD_oddPlane _ _ (by omega), getLsbD_indexOf,
      if_pos (by omega)]
  · rw [(getLsbD_packHalf _ _ hi16).2, getLsbD_lowHalf _ hi16, getLsbD_evenPlane _ _ (by omega), getLsbD_indexOf,
      if_pos (by omega)]

/-- Packing the high halves of the two planes gives the high half of the index back (R90, R98). -/
theorem packHalf_highHalf_planes (lo hi : Word) :
    packHalf (highHalf (evenPlane lo hi)) (highHalf (oddPlane lo hi)) = hi := by
  refine word_eq_of_even_odd_bits (fun i hi16 => ?_) (fun i hi16 => ?_)
  · rw [(getLsbD_packHalf _ _ hi16).1, getLsbD_highHalf _ hi16, getLsbD_oddPlane _ _ (by omega), getLsbD_indexOf,
      if_neg (by omega), show 2 * (16 + i) - 32 = 2 * i by omega]
  · rw [(getLsbD_packHalf _ _ hi16).2, getLsbD_highHalf _ hi16, getLsbD_evenPlane _ _ (by omega), getLsbD_indexOf,
      if_neg (by omega), show 2 * (16 + i) + 1 - 32 = 2 * i + 1 by omega]

/-- CurveEncode undoes CurveDecode (R102). -/
theorem hencFn_hdecFn (lo hi : Word) : hencFn (hdecFn lo hi).1 (hdecFn lo hi).2 = (lo, hi) := by
  rw [hencFn, hdecFn_fst_xor_snd]
  change (packHalf (lowHalf (hencEven (hdecX _ _) (hdecX _ _ ^^^ _))) _,
    packHalf (highHalf (hencEven (hdecX _ _) (hdecX _ _ ^^^ _))) _) = _
  rw [hencEven_hdecX, packHalf_lowHalf_planes, packHalf_highHalf_planes]

/-- CurveDecode undoes CurveEncode: there are as many indices as coordinate pairs (R102). -/
theorem hdecFn_hencFn (x y : Word) : hdecFn (hencFn x y).1 (hencFn x y).2 = (x, y) := by
  have hinv : Function.LeftInverse (fun p : Word × Word => hencFn p.1 p.2) (fun n => hdecFn n.1 n.2) :=
    fun n => hencFn_hdecFn n.1 n.2
  exact hinv.rightInverse_of_surjective hinv.injective.bijective_of_finite.surjective (x, y)

/-- Settles O20: HENC is a left inverse by the recurrence, and a right inverse by finiteness. -/
theorem curveTransformsAreInverse : Obligations.CurveTransformsAreInverse := ⟨hdecFn_hencFn, hencFn_hdecFn⟩

/-- Settles O17: existence and uniqueness by the two laws of R102. -/
theorem curveEncodeInvertsCurveDecode : Obligations.CurveEncodeInvertsCurveDecode := by
  refine fun y x s =>
    ⟨decode_packReq 5#3 y x, _, answers_of_defined rfl s, hdecFn_hencFn x y, fun lo hi h => ?_, rfl, rfl⟩
  have hcode := hencFn_hdecFn lo hi
  rw [h] at hcode
  exact ⟨congrArg Prod.fst hcode.symm, congrArg Prod.snd hcode.symm⟩

/-- Settles O25: the responses carry the results of the two transforms in both builds (D10). -/
theorem responseFeedsTheInverseRequest : Obligations.ResponseFeedsTheInverseRequest := by
  refine fun f p q => ⟨?_, ?_⟩ <;> simp only [transact, decode_packReq]
  · exact Prod.mk.inj (hdecFn_hencFn p q)
  · exact Prod.mk.inj (hencFn_hdecFn p q)

/-- The float of index 0 is +0 (R99). -/
theorem f64val_zero : f64val 0 0 = 0 := by decide

/-- Settles O21: the transforms of zeros evaluate to zeros, as does the float. -/
theorem originIsFixed : Obligations.OriginIsFixed := by
  have hencode : hencFn 0 0 = (0, 0) := by decide
  have hdecode : hdecFn 0 0 = (0, 0) := by decide
  refine ⟨hencode, hdecode, fun s => ⟨?_, ?_⟩⟩
  · have hanswer := answers_of_defined (i := .henc 0 0) rfl s
    rwa [respond, hencResponse, hencode, f64val_zero] at hanswer
  · have hanswer := answers_of_defined (i := .hdec 0 0) rfl s
    rwa [respond, hdecResponse, hdecode] at hanswer

end Sys2Proof.Machine
end

section
/-! PROOF. The curve as a path through quadrants.  From the top digit of the index down, CurveDecode
is an automaton of four states: the two parities of the digits above. -/

namespace Sys2Proof.Machine

/-! ### The curve of a state -/

/-- The cell `c` of one quadrant of the square of side 2^(k+1), the quadrant named by the top bits
of x and y. -/
def place (k : Nat) (x y : Bool) (c : Nat × Nat) : Nat × Nat := (x.toNat * 2 ^ k + c.1, y.toNat * 2 ^ k + c.2)

/-- A corner of the square of side 2^k. -/
def corner (k : Nat) (x y : Bool) : Nat × Nat := (x.toNat * (2 ^ k - 1), y.toNat * (2 ^ k - 1))

/-- The cell of the low k digits (base 4) of `n` in the square of side 2^k, where `p` and `q` are the
parities of the digits 0 and 3 above them. -/
def curveCell : Nat → Bool → Bool → Nat → Nat × Nat
  | 0, _, _, _ => (0, 0)
  | k + 1, p, q, n =>
    match n / 4 ^ k % 4 with
    | 0 => place k q q (curveCell k (!p) q n)
    | 1 => place k p (!p) (curveCell k p q n)
    | 2 => place k (!q) (!q) (curveCell k p q n)
    | _ => place k (!p) p (curveCell k p (!q) n)

section
variable {k n : Nat} (p q : Bool)

theorem curveCell_digit_zero (h : n / 4 ^ k % 4 = 0) :
    curveCell (k + 1) p q n = place k q q (curveCell k (!p) q n) := by simp [curveCell, h]

theorem curveCell_digit_one (h : n / 4 ^ k % 4 = 1) :
    curveCell (k + 1) p q n = place k p (!p) (curveCell k p q n) := by simp [curveCell, h]

theorem curveCell_digit_two (h : n / 4 ^ k % 4 = 2) :
    curveCell (k + 1) p q n = place k (!q) (!q) (curveCell k p q n) := by simp [curveCell, h]

theorem curveCell_digit_three (h : n / 4 ^ k % 4 = 3) :
    curveCell (k + 1) p q n = place k (!p) p (curveCell k p (!q) n) := by simp [curveCell, h]

/-- The top digit alone chooses the quadrant and the state of the curve in it. -/
theorem exists_curveCell_succ_eq_place (k d : Nat) : ∃ x y p' q', ∀ n, n / 4 ^ k = d →
    curveCell (k + 1) p q n = place k x y (curveCell k p' q' n) := by
  have hcases : d % 4 = 0 ∨ d % 4 = 1 ∨ d % 4 = 2 ∨ d % 4 = 3 := by omega
  rcases hcases with hd | hd | hd | hd
  · exact ⟨_, _, _, _, fun n h => curveCell_digit_zero p q (h ▸ hd)⟩
  · exact ⟨_, _, _, _, fun n h => curveCell_digit_one p q (h ▸ hd)⟩
  · exact ⟨_, _, _, _, fun n h => curveCell_digit_two p q (h ▸ hd)⟩
  · exact ⟨_, _, _, _, fun n h => curveCell_digit_three p q (h ▸ hd)⟩

end

/-! ### CurveDecode follows the curve -/

/-- A digit of the index in base 4, from its two bits. -/
theorem div_four_pow_mod_four (n k : Nat) :
    n / 4 ^ k % 4 = (n.testBit (2 * k)).toNat + 2 * (n.testBit (2 * k + 1)).toNat := by
  have hpow : 4 ^ k = 2 ^ (2 * k) := by rw [Nat.pow_mul]
  rw [Nat.toNat_testBit, Nat.toNat_testBit, hpow, Nat.pow_succ, ← Nat.div_div_eq_div_mul]
  omega

/-- The low k + 1 bits of the coordinates: bit k names the quadrant. -/
theorem mod_two_pow_succ_eq_place (x y : Word) (k : Nat) :
    (x.toNat % 2 ^ (k + 1), y.toNat % 2 ^ (k + 1)) =
      place k (x.getLsbD k) (y.getLsbD k) (x.toNat % 2 ^ k, y.toNat % 2 ^ k) := by
  simp only [place, BitVec.getLsbD, Nat.toNat_testBit, Nat.mod_pow_succ, Nat.add_comm, Nat.mul_comm]

/-- The low k bits of the coordinates are the curve of the low k digits of the index, in the state
that the digits above leave. -/
theorem hdecFn_mod_two_pow (lo hi : Word) {k : Nat} (hk : k ≤ 32) :
    ((hdecFn lo hi).1.toNat % 2 ^ k, (hdecFn lo hi).2.toNat % 2 ^ k) =
      curveCell k ((zeroParity (oddPlane lo hi) (evenPlane lo hi)).getLsbD k)
        ((oneParity (oddPlane lo hi) (evenPlane lo hi)).getLsbD k) (indexOf lo hi).toNat := by
  induction k with
  | zero => simp [curveCell, Nat.mod_one]
  | succ k ih =>
    obtain ⟨hx, hy⟩ := getLsbD_hdecFn lo hi hk
    have hdigit := div_four_pow_mod_four (indexOf lo hi).toNat k
    rw [BitVec.testBit_toNat, BitVec.testBit_toNat] at hdigit
    rw [mod_two_pow_succ_eq_place, ih (Nat.le_of_succ_le hk), getLsbD_zeroParity _ _ hk, getLsbD_oneParity,
      getLsbD_oddPlane lo hi hk, getLsbD_evenPlane lo hi hk, hy, hx]
    cases ho : (indexOf lo hi).getLsbD (2 * k) <;> cases he : (indexOf lo hi).getLsbD (2 * k + 1) <;>
      rw [ho, he] at hdigit
    · rw [curveCell_digit_zero _ _ hdigit]; simp
    · rw [curveCell_digit_two _ _ hdigit]; simp
    · rw [curveCell_digit_one _ _ hdigit]; simp
    · rw [curveCell_digit_three _ _ hdigit]; simp

/-! ### The two ends of the curve -/

theorem place_corner (k : Nat) (x y : Bool) : place k x y (corner k x y) = corner (k + 1) x y := by
  have hpow : 2 ^ (k + 1) = 2 ^ k + 2 ^ k := by omega
  have hpos := Nat.two_pow_pos k
  cases x <;> cases y <;> simp [place, corner] <;> omega

/-- In the state (p, q) the curve starts at the corner (q, q). -/
theorem curveCell_start {k n : Nat} (h : n % 4 ^ k = 0) (p q : Bool) : curveCell k p q n = corner k q q := by
  induction k generalizing p with
  | zero => simp [curveCell, corner]
  | succ k ih =>
    have hsplit : n % 4 ^ (k + 1) = n % 4 ^ k + 4 ^ k * (n / 4 ^ k % 4) := Nat.mod_pow_succ
    have hpos : 0 < 4 ^ k := Nat.pow_pos (by decide)
    have hdigit : n / 4 ^ k % 4 = 0 := (Nat.mul_eq_zero.mp (by omega)).resolve_left hpos.ne'
    rw [curveCell_digit_zero p q hdigit, ih (by omega), place_corner]

/-- In the state (p, q) the curve ends at the corner (~p, p). -/
theorem curveCell_end {k n : Nat} (h : n % 4 ^ k + 1 = 4 ^ k) (p q : Bool) :
    curveCell k p q n = corner k (!p) p := by
  induction k generalizing q with
  | zero => simp [curveCell, corner]
  | succ k ih =>
    have hsplit : n % 4 ^ (k + 1) = n % 4 ^ k + 4 ^ k * (n / 4 ^ k % 4) := Nat.mod_pow_succ
    have hlt : n % 4 ^ k < 4 ^ k := Nat.mod_lt _ (Nat.pow_pos (by decide))
    have hdigit : n / 4 ^ k % 4 = 3 := by
      by_contra hne
      have hle : 4 ^ k * (n / 4 ^ k % 4) ≤ 4 ^ k * 2 := Nat.mul_le_mul_left _ (by omega)
      omega
    rw [hdigit] at hsplit
    rw [curveCell_digit_three p q hdigit, ih (by omega), place_corner]

/-! ### Consecutive cells share an edge -/

/-- Two cells share an edge: one coordinate is equal, and the other differs by 1. -/
def ShareEdge (c d : Nat × Nat) : Prop :=
  (c.1 = d.1 ∧ (c.2 + 1 = d.2 ∨ d.2 + 1 = c.2)) ∨ (c.2 = d.2 ∧ (c.1 + 1 = d.1 ∨ d.1 + 1 = c.1))

theorem ShareEdge.place {c d : Nat × Nat} (h : ShareEdge c d) (k : Nat) (x y : Bool) :
    ShareEdge (place k x y c) (place k x y d) := by
  simp only [ShareEdge, Machine.place] at h ⊢
  omega

/-- Where the curve goes from one quadrant to the next, the two cells at the border share an edge. -/
theorem shareEdge_crossings (k : Nat) (p q : Bool) :
    ShareEdge (place k q q (corner k p (!p))) (place k p (!p) (corner k q q)) ∧
    ShareEdge (place k p (!p) (corner k (!p) p)) (place k (!q) (!q) (corner k q q)) ∧
    ShareEdge (place k (!q) (!q) (corner k (!p) p)) (place k (!p) p (corner k (!q) (!q))) := by
  have hpos := Nat.two_pow_pos k
  cases p <;> cases q <;> simp [ShareEdge, place, corner] <;> omega

/-- The successor of an index that is not the last of its curve: the digit stays and the low digits
go on, or the low digits are at their end and start anew in the next digit. -/
theorem succ_digit_cases {n k : Nat} (h : n % 4 ^ (k + 1) + 1 < 4 ^ (k + 1)) :
    (n % 4 ^ k + 1 < 4 ^ k ∧ (n + 1) / 4 ^ k = n / 4 ^ k) ∨
    (n % 4 ^ k + 1 = 4 ^ k ∧ (n + 1) % 4 ^ k = 0 ∧ (n + 1) / 4 ^ k = n / 4 ^ k + 1 ∧ n / 4 ^ k % 4 < 3) := by
  have hsplit : n % 4 ^ (k + 1) = n % 4 ^ k + 4 ^ k * (n / 4 ^ k % 4) := Nat.mod_pow_succ
  have hlt : n % 4 ^ k < 4 ^ k := Nat.mod_lt _ (Nat.pow_pos (by decide))
  have hsucc : n + 1 = 4 ^ k * (n / 4 ^ k) + (n % 4 ^ k + 1) := by rw [← Nat.add_assoc, Nat.div_add_mod]
  have hle : n % 4 ^ k + 1 ≤ 4 ^ k := hlt
  rcases Nat.lt_or_eq_of_le hle with hlow | hlow
  · have hndvd : ¬ 4 ^ k ∣ n + 1 := fun hdvd => by
      rw [hsucc, Nat.dvd_add_right (Nat.dvd_mul_right ..)] at hdvd
      exact absurd (Nat.le_of_dvd (Nat.succ_pos _) hdvd) (Nat.not_le.mpr hlow)
    exact .inl ⟨hlow, Nat.succ_div_of_not_dvd hndvd⟩
  · have hdvd : 4 ^ k ∣ n + 1 := ⟨n / 4 ^ k + 1, by rw [hsucc, Nat.mul_succ, hlow]⟩
    refine .inr ⟨hlow, Nat.mod_eq_zero_of_dvd hdvd, Nat.succ_div_of_dvd hdvd, ?_⟩
    by_contra hge
    have hdigit : n / 4 ^ k % 4 = 3 := by omega
    rw [hdigit] at hsplit
    omega

/-- Consecutive cells of the curve share an edge. -/
theorem curveCell_shareEdge_succ {k n : Nat} (h : n % 4 ^ k + 1 < 4 ^ k) (p q : Bool) :
    ShareEdge (curveCell k p q n) (curveCell k p q (n + 1)) := by
  induction k generalizing p q with
  | zero => simp [Nat.mod_one] at h
  | succ k ih =>
    obtain ⟨hlow, hdiv⟩ | ⟨hend, hstart, hdiv, hdigit⟩ := succ_digit_cases h
    · obtain ⟨x, y, p', q', hplace⟩ := exists_curveCell_succ_eq_place p q k (n / 4 ^ k)
      rw [hplace n rfl, hplace (n + 1) hdiv]
      exact (ih hlow p' q').place k x y
    · obtain ⟨h01, h12, h23⟩ := shareEdge_crossings k p q
      have hcases : n / 4 ^ k % 4 = 0 ∨ n / 4 ^ k % 4 = 1 ∨ n / 4 ^ k % 4 = 2 := by omega
      rcases hcases with hd | hd | hd
      · rw [curveCell_digit_zero _ _ hd, curveCell_digit_one _ _ (by omega), curveCell_end hend,
          curveCell_start hstart, Bool.not_not]
        exact h01
      · rw [curveCell_digit_one _ _ hd, curveCell_digit_two _ _ (by omega), curveCell_end hend,
          curveCell_start hstart]
        exact h12
      · rw [curveCell_digit_two _ _ hd, curveCell_digit_three _ _ (by omega), curveCell_end hend,
          curveCell_start hstart]
        exact h23

end Sys2Proof.Machine
end

section
/-! PROOF. Locality, orientation and sub-squares of the curve (R104 to R106). -/

namespace Sys2Proof.Machine

open Sys2Proof.Claims

/-! ### Whole indices -/

/-- Every index is the index of its halves (R41). -/
theorem indexOf_halves (n : Index) : indexOf (indexLo n) (indexHi n) = n := by
  refine BitVec.eq_of_getLsbD_eq fun i hi => ?_
  rw [getLsbD_indexOf, indexLo, indexHi, BitVec.getLsbD_extractLsb', BitVec.getLsbD_extractLsb']
  split
  · next hlow => simp [hlow]
  · next hlow => simp [show i - 32 < 32 by omega, show 32 + (i - 32) = i by omega]

/-- CurveEncode undoes CurveDecode on whole indices (R41, R102). -/
theorem indexOf_hencFn_hdecIndex (n : Index) :
    indexOf (hencFn (hdecIndex n).1 (hdecIndex n).2).1 (hencFn (hdecIndex n).1 (hdecIndex n).2).2 = n := by
  rw [hdecIndex, hencFn_hdecFn, indexOf_halves]

theorem hdecIndex_injective : Function.Injective hdecIndex := fun n m h => by
  rw [← indexOf_hencFn_hdecIndex n, h, indexOf_hencFn_hdecIndex]

theorem hdecIndex_surjective : Function.Surjective hdecIndex :=
  fun (x, y) => ⟨indexOf (hencFn x y).1 (hencFn x y).2, (hdecIndex_indexOf _ _).trans (hdecFn_hencFn x y)⟩

/-! ### Locality -/

/-- The whole curve starts in the state of an index with no digits above. -/
theorem hdecIndex_eq_curveCell (n : Index) :
    ((hdecIndex n).1.toNat, (hdecIndex n).2.toNat) = curveCell 32 false false n.toNat := by
  have hcell := hdecFn_mod_two_pow (indexLo n) (indexHi n) le_rfl
  rwa [indexOf_halves, BitVec.getLsbD_of_ge _ 32 le_rfl, BitVec.getLsbD_of_ge _ 32 le_rfl,
    Nat.mod_eq_of_lt (BitVec.isLt _), Nat.mod_eq_of_lt (BitVec.isLt _)] at hcell

/-- Cells that share an edge are at both distances 1. -/
theorem ShareEdge.distance {p q : Word × Word}
    (h : ShareEdge (p.1.toNat, p.2.toNat) (q.1.toNat, q.2.toNat)) :
    max (distance p.1 q.1) (distance p.2 q.2) = 1 ∧ distance p.1 q.1 + distance p.2 q.2 = 1 := by
  simp only [ShareEdge, Claims.distance] at h ⊢
  omega

/-- Settles O22: the curve of all 32 digits goes from cell to neighbouring cell. -/
theorem curveIsLocal : Obligations.CurveIsLocal := by
  intro n hn
  have hsucc : (n + 1).toNat = n.toNat + 1 := by
    rw [BitVec.toNat_add, Nat.mod_eq_of_lt]
    · rfl
    · exact Nat.lt_sub_iff_add_lt.mp hn
  refine ShareEdge.distance ?_
  rw [hdecIndex_eq_curveCell, hdecIndex_eq_curveCell, hsucc]
  refine curveCell_shareEdge_succ ?_ false false
  omega

/-! ### Orientation -/

/-- The top bit of a coordinate tells its half of the axis. -/
theorem div_two_pow_31 (v : Word) : v.toNat / 2 ^ 31 = (v.getLsbD 31).toNat := by
  have hlt := v.isLt
  rw [BitVec.getLsbD, Nat.toNat_testBit]
  omega

/-- The top digit of the index tells the quadrant: 0, 1, 2, 3 are (0, 0), (0, 1), (1, 1), (1, 0) in
the halves of x and y (R105). -/
theorem hdecIndex_quadrant (n : Index) : ((hdecIndex n).1.toNat / 2 ^ 31, (hdecIndex n).2.toNat / 2 ^ 31) =
    ((n.getLsbD 63).toNat, (n.getLsbD 63 ^^ n.getLsbD 62).toNat) := by
  obtain ⟨hx, hy⟩ := getLsbD_hdecFn (indexLo n) (indexHi n) (show 31 < 32 by decide)
  rw [BitVec.getLsbD_of_ge _ (31 + 1) le_rfl, BitVec.getLsbD_of_ge _ (31 + 1) le_rfl, indexOf_halves, ite_self,
    Bool.xor_false] at hx
  rw [indexOf_halves, hx] at hy
  rw [div_two_pow_31, div_two_pow_31]
  exact Prod.ext (congrArg Bool.toNat hx) (congrArg Bool.toNat hy)

/-- Settles O23: the listed cells by evaluation, the quarters by the top digit of the index. -/
theorem curveOrientation : Obligations.CurveOrientation := by
  refine ⟨by decide, by decide, by decide, fun n => ?_⟩
  obtain ⟨hx, hy⟩ := Prod.mk.inj (hdecIndex_quadrant n)
  have hdigit := div_four_pow_mod_four n.toNat 31
  simp only [Nat.reduceMul, Nat.reduceAdd, BitVec.testBit_toNat] at hdigit
  have hn := n.isLt
  have hxlt := (hdecIndex n).1.isLt
  have hylt := (hdecIndex n).2.isLt
  cases h62 : n.getLsbD 62 <;> cases h63 : n.getLsbD 63 <;>
    simp only [h62, h63, Bool.toNat_true, Bool.toNat_false, Bool.xor_true, Bool.xor_false, Bool.not_true,
      Bool.not_false] at hx hy hdigit <;> omega

/-! ### Sub-squares -/

/-- A bit vector is below 2^k exactly if its bits from position k up are 0. -/
theorem toNat_lt_two_pow_iff {w : Nat} (v : BitVec w) (k : Nat) :
    v.toNat < 2 ^ k ↔ ∀ j < w, k ≤ j → v.getLsbD j = false := by
  constructor
  · exact fun h j _ hkj => Nat.testBit_lt_two_pow (h.trans_le (Nat.pow_le_pow_right (by decide) hkj))
  · refine fun h => Nat.lt_pow_two_of_testBit _ fun j hkj => ?_
    rcases Nat.lt_or_ge j w with hj | hj
    · exact h j hj hkj
    · exact BitVec.getLsbD_of_ge v j hj

/-- Where the operand has one and the same bit from a position up, PSCAN32 has the parity of their
number (R75). -/
theorem getLsbD_pscan32_of_const {v : Word} {k : Nat} {b : Bool} (h : ∀ i < 32, k ≤ i → v.getLsbD i = b) {j : Nat}
    (hj : j ≤ 32) (hkj : k ≤ j) : (pscan32 v).getLsbD j = (b && decide ((32 - j) % 2 = 1)) := by
  induction hj using Nat.decreasingInduction with
  | self => simp [BitVec.getLsbD_of_ge]
  | of_succ j hj ih =>
    rw [getLsbD_pscan32, h j hj hkj, ih (Nat.le_succ_of_le hkj)]
    have hparity : (32 - j) % 2 = 1 ↔ ¬ (32 - (j + 1)) % 2 = 1 := by omega
    rw [decide_eq_decide.mpr hparity, decide_not]
    cases b <;> simp only [Bool.true_and, Bool.true_xor, Bool.false_and, Bool.xor_false]

/-- Where `odd` is 0 from position k up, both coordinates are `even` there: no position counts for
`oneParity`. -/
theorem getLsbD_hdecFn_of_odd_eq_false {lo hi : Word} {k : Nat}
    (h : ∀ j < 32, k ≤ j → (indexOf lo hi).getLsbD (2 * j) = false) {j : Nat} (hj : j < 32) (hkj : k ≤ j) :
    (hdecFn lo hi).1.getLsbD j = (indexOf lo hi).getLsbD (2 * j + 1) ∧
      (hdecFn lo hi).2.getLsbD j = (indexOf lo hi).getLsbD (2 * j + 1) := by
  have hone : (oneParity (oddPlane lo hi) (evenPlane lo hi)).getLsbD (j + 1) = false := by
    refine (getLsbD_pscan32_of_const (b := false) (k := k) (fun i hi32 hki => ?_) hj (Nat.le_succ_of_le hkj)).trans
      (Bool.false_and _)
    rw [BitVec.getLsbD_and, getLsbD_oddPlane lo hi hi32, h i hi32 hki, Bool.false_and]
  obtain ⟨hx, hy⟩ := getLsbD_hdecFn lo hi hj
  rw [h j hj hkj, hone, if_neg Bool.false_ne_true, Bool.xor_false] at hx
  rw [h j hj hkj, Bool.xor_false, hx] at hy
  exact ⟨hx, hy⟩

/-- An index is below 4^k exactly if its digits from position k up are 0. -/
theorem toNat_lt_four_pow_iff (n : Index) (k : Nat) : n.toNat < 4 ^ k ↔
    ∀ j < 32, k ≤ j → n.getLsbD (2 * j) = false ∧ n.getLsbD (2 * j + 1) = false := by
  have hpow : 4 ^ k = 2 ^ (2 * k) := by rw [Nat.pow_mul]
  rw [hpow, toNat_lt_two_pow_iff]
  refine ⟨fun h j hj hkj => ⟨h _ (by omega) (by omega), h _ (by omega) (by omega)⟩, fun h i hi hki => ?_⟩
  obtain ⟨j, rfl | rfl⟩ := i.even_or_odd'
  · exact (h j (by omega) (by omega)).1
  · exact (h j (by omega) (by omega)).2

/-- The indices of k digits are the indices of the cells of the square of side 2^k (R106). -/
theorem indexOf_lt_four_pow_iff (lo hi : Word) (k : Nat) : (indexOf lo hi).toNat < 4 ^ k ↔
    (hdecFn lo hi).1.toNat < 2 ^ k ∧ (hdecFn lo hi).2.toNat < 2 ^ k := by
  rw [toNat_lt_four_pow_iff, toNat_lt_two_pow_iff, toNat_lt_two_pow_iff]
  constructor
  · refine fun h => ⟨fun j hj hkj => ?_, fun j hj hkj => ?_⟩ <;>
      obtain ⟨hx, hy⟩ := getLsbD_hdecFn_of_odd_eq_false (fun j hj hkj => (h j hj hkj).1) hj hkj
    · exact hx.trans (h j hj hkj).2
    · exact hy.trans (h j hj hkj).2
  · rintro ⟨hx, hy⟩
    have hodd : ∀ j < 32, k ≤ j → (indexOf lo hi).getLsbD (2 * j) = false := fun j hj hkj => by
      have hxor := (getLsbD_hdecFn lo hi hj).2
      rwa [hx j hj hkj, hy j hj hkj, Bool.false_xor, eq_comm] at hxor
    exact fun j hj hkj => ⟨hodd j hj hkj, (getLsbD_hdecFn_of_odd_eq_false hodd hj hkj).1.symm.trans (hx j hj hkj)⟩

theorem hdecIndex_lt_iff (n : Index) (k : Nat) :
    n.toNat < 4 ^ k ↔ (hdecIndex n).1.toNat < 2 ^ k ∧ (hdecIndex n).2.toNat < 2 ^ k := by
  have h := indexOf_lt_four_pow_iff (indexLo n) (indexHi n) k
  rwa [indexOf_halves] at h

/-- The last index of k digits decodes to the end of the curve: each of the 32 - k zero digits above
is one more digit 0. -/
theorem hdecIndex_of_last {n : Index} {k : Nat} (hk : k ≤ 32) (hn : n.toNat + 1 = 4 ^ k) :
    ((hdecIndex n).1.toNat, (hdecIndex n).2.toNat) = corner k (decide (k % 2 = 0)) (decide (k % 2 = 1)) := by
  have hlt : n.toNat < 4 ^ k := by omega
  have hzero : (zeroParity (oddPlane (indexLo n) (indexHi n)) (evenPlane (indexLo n) (indexHi n))).getLsbD k =
      decide (k % 2 = 1) := by
    have hbits := (toNat_lt_four_pow_iff n k).mp hlt
    refine (getLsbD_pscan32_of_const (b := true) (k := k) (fun i hi32 hki => ?_) hk le_rfl).trans ?_
    · rw [BitVec.getLsbD_not, BitVec.getLsbD_or, getLsbD_oddPlane _ _ hi32, getLsbD_evenPlane _ _ hi32,
        indexOf_halves, (hbits i hi32 hki).1, (hbits i hi32 hki).2, decide_eq_true hi32]
      rfl
    · rw [Bool.true_and, decide_eq_decide]
      omega
  obtain ⟨hx, hy⟩ := (hdecIndex_lt_iff n k).mp hlt
  have hcell := hdecFn_mod_two_pow (indexLo n) (indexHi n) hk
  rw [indexOf_halves, hzero, curveCell_end (by rw [Nat.mod_eq_of_lt hlt, hn])] at hcell
  change ((hdecIndex n).1.toNat % 2 ^ k, (hdecIndex n).2.toNat % 2 ^ k) = _ at hcell
  rw [Nat.mod_eq_of_lt hx, Nat.mod_eq_of_lt hy] at hcell
  rw [hcell]
  congr 1
  rw [← decide_not, decide_eq_decide]
  omega

/-- Settles O24: the square by its indices, one to one by R102, and the corner by the parity of k. -/
theorem subSquares : Obligations.SubSquares := by
  refine fun k hk => ⟨fun n => (hdecIndex_lt_iff n k).mp, fun x y hx hy => ?_, ?_⟩
  · obtain ⟨n, hn⟩ := hdecIndex_surjective (x, y)
    have hlt : n.toNat < 4 ^ k := (hdecIndex_lt_iff n k).mpr (by rw [hn]; exact ⟨hx, hy⟩)
    exact ⟨n, ⟨hlt, hn⟩, fun m hm => hdecIndex_injective (hm.2.trans hn.symm)⟩
  · have hpos : 0 < 4 ^ k := Nat.pow_pos (by decide)
    have hle : 4 ^ k ≤ 4 ^ 32 := Nat.pow_le_pow_right (by decide) hk
    have hle2 : 2 ^ k ≤ 2 ^ 32 := Nat.pow_le_pow_right (by decide) hk
    have hlast : (BitVec.ofNat 64 (4 ^ k - 1)).toNat + 1 = 4 ^ k := by
      rw [BitVec.toNat_ofNat, Nat.mod_eq_of_lt (by omega)]
      omega
    have hside : (BitVec.ofNat 32 (2 ^ k - 1)).toNat = 2 ^ k - 1 := by
      rw [BitVec.toNat_ofNat, Nat.mod_eq_of_lt (by omega)]
    obtain ⟨hx, hy⟩ := Prod.mk.inj (hdecIndex_of_last hk hlast)
    split
    · next heven =>
      refine Prod.ext (BitVec.eq_of_toNat_eq (hx.trans ?_)) (BitVec.eq_of_toNat_eq (hy.trans ?_))
      · simp [heven, hside]
      · simp [heven]
    · next hodd =>
      refine Prod.ext (BitVec.eq_of_toNat_eq (hx.trans ?_)) (BitVec.eq_of_toNat_eq (hy.trans ?_))
      · simp [hodd]
      · simp [Nat.mod_two_ne_zero.mp hodd, hside]

end Sys2Proof.Machine
end

section
/-! PROOF. The binary64 encoding: what its fields determine, and where its values lie (R43). -/

namespace Sys2Proof.Machine

/-! ### The fields of an encoding -/

theorem f64Fraction_lt (v : Double) : f64Fraction v < 2 ^ 52 := BitVec.isLt _

/-- An encoding is its three fields side by side (R43). -/
theorem toNat_eq_fields (v : Double) :
    v.toNat = (f64Sign v).toNat * 2 ^ 63 + f64Exponent v * 2 ^ 52 + f64Fraction v := by
  have hlt := v.isLt
  rw [f64Sign, BitVec.getLsbD, Nat.toNat_testBit, f64Exponent, f64Fraction, BitVec.extractLsb'_toNat,
    BitVec.extractLsb'_toNat, Nat.shiftRight_eq_div_pow, Nat.shiftRight_zero]
  omega

/-- The fields of a non-negative encoding, written as a number (R43). -/
theorem f64_fields_ofNat {E f : Nat} (hE : E < 2 ^ 11) (hf : f < 2 ^ 52) :
    f64Sign (BitVec.ofNat 64 (E * 2 ^ 52 + f)) = false ∧ f64Exponent (BitVec.ofNat 64 (E * 2 ^ 52 + f)) = E ∧
      f64Fraction (BitVec.ofNat 64 (E * 2 ^ 52 + f)) = f := by
  have hfields := toNat_eq_fields (BitVec.ofNat 64 (E * 2 ^ 52 + f))
  have hfrac := f64Fraction_lt (BitVec.ofNat 64 (E * 2 ^ 52 + f))
  rw [BitVec.toNat_ofNat, Nat.mod_eq_of_lt (by omega)] at hfields
  have hexp : f64Exponent (BitVec.ofNat 64 (E * 2 ^ 52 + f)) < 2 ^ 11 := BitVec.isLt _
  cases hs : f64Sign (BitVec.ofNat 64 (E * 2 ^ 52 + f)) <;> rw [hs] at hfields <;>
    simp only [Bool.toNat_true, Bool.toNat_false] at hfields
  · exact ⟨rfl, by omega, by omega⟩
  · omega

/-! ### The magnitude -/

theorem f64Magnitude_lt (v : Double) : f64Magnitude v < 2 ^ 52 * 2 ^ f64Exponent v := by
  have hfrac := f64Fraction_lt v
  unfold f64Magnitude
  split
  · next h => simpa [h] using hfrac
  · next h =>
    have hpow : 2 ^ f64Exponent v = 2 * 2 ^ (f64Exponent v - 1) := by
      rw [← Nat.pow_succ', Nat.succ_eq_add_one, Nat.sub_add_cancel (Nat.pos_of_ne_zero h)]
    rw [hpow, ← Nat.mul_assoc]
    exact Nat.mul_lt_mul_of_pos_right (by omega) (Nat.two_pow_pos _)

theorem f64Magnitude_of_exponent_ne_zero {v : Double} (h : f64Exponent v ≠ 0) :
    f64Magnitude v = (2 ^ 52 + f64Fraction v) * 2 ^ (f64Exponent v - 1) := if_neg h

/-- A greater exponent is a greater magnitude. -/
theorem f64Magnitude_lt_of_exponent_lt {v w : Double} (h : f64Exponent v < f64Exponent w) :
    f64Magnitude v < f64Magnitude w := by
  rw [f64Magnitude_of_exponent_ne_zero (v := w) (by omega)]
  calc f64Magnitude v < 2 ^ 52 * 2 ^ f64Exponent v := f64Magnitude_lt v
    _ ≤ (2 ^ 52 + f64Fraction w) * 2 ^ (f64Exponent w - 1) :=
      Nat.mul_le_mul (Nat.le_add_right ..) (Nat.pow_le_pow_right (by decide) (by omega))

/-- The magnitude determines the exponent and the fraction. -/
theorem f64_fields_eq_of_magnitude_eq {v w : Double} (h : f64Magnitude v = f64Magnitude w) :
    f64Exponent v = f64Exponent w ∧ f64Fraction v = f64Fraction w := by
  have hexp : f64Exponent v = f64Exponent w := by
    rcases lt_trichotomy (f64Exponent v) (f64Exponent w) with hlt | heq | hgt
    · exact absurd h (f64Magnitude_lt_of_exponent_lt hlt).ne
    · exact heq
    · exact absurd h (f64Magnitude_lt_of_exponent_lt hgt).ne'
  refine ⟨hexp, ?_⟩
  unfold f64Magnitude at h
  rw [hexp] at h
  split at h
  · exact h
  · exact Nat.add_left_cancel (Nat.eq_of_mul_eq_mul_right (Nat.two_pow_pos _) h)

theorem eq_of_sign_of_magnitude {v w : Double} (hs : f64Sign v = f64Sign w) (hm : f64Magnitude v = f64Magnitude w) :
    v = w := by
  obtain ⟨hexp, hfrac⟩ := f64_fields_eq_of_magnitude_eq hm
  exact BitVec.eq_of_toNat_eq (by rw [toNat_eq_fields, toNat_eq_fields w, hs, hexp, hfrac])

theorem f64Scaled_of_nonneg {v : Double} (h : f64Sign v = false) : f64Scaled v = f64Magnitude v := by
  simp [f64Scaled, h]

/-- Against the grid of the multiples of 2^g, a double is on it, or below the 2^52nd of them. -/
theorem f64_on_grid_or_below (w : Double) (g : Nat) :
    (f64Sign w = false ∧ 2 ^ g ∣ f64Magnitude w) ∨ f64Scaled w < (2 ^ 52 * 2 ^ g : Nat) := by
  cases hs : f64Sign w with
  | true =>
    refine .inr (lt_of_le_of_lt (?_ : f64Scaled w ≤ 0) (by positivity))
    simp [f64Scaled, hs]
  | false =>
    rw [f64Scaled_of_nonneg hs, Int.ofNat_lt]
    rcases Nat.lt_or_ge g (f64Exponent w) with hg | hg
    · refine .inl ⟨rfl, ?_⟩
      rw [f64Magnitude_of_exponent_ne_zero (by omega)]
      exact Nat.dvd_mul_left_of_dvd (Nat.pow_dvd_pow 2 (by omega)) _
    · exact .inr ((f64Magnitude_lt w).trans_le (Nat.mul_le_mul_left _ (Nat.pow_le_pow_right (by decide) hg)))

end Sys2Proof.Machine
end

section
/-! PROOF. F64VAL rounds to the nearest double, ties to even (R99, log 11). -/

namespace Sys2Proof.Machine

open Sys2Proof.Claims

/-! ### Rounding to a grid -/

/-- `S` is a multiple of `U` nearest to `N`, and an even one where another is as near. -/
def RoundsTo (N U S : ℤ) : Prop :=
  ∀ t : ℤ, |N - S * U| ≤ |N - t * U| ∧ (|N - t * U| = |N - S * U| → t ≠ S → S % 2 = 0)

theorem roundsTo_of_eq_mul {N U S : ℤ} (h : N = S * U) (hU : 0 < U) : RoundsTo N U S := by
  refine fun t => ⟨by simp [h], fun htie hne => absurd ?_ hne⟩
  rw [h, sub_self, abs_zero, abs_eq_zero, sub_eq_zero] at htie
  exact (mul_right_cancel₀ hU.ne' htie).symm

theorem RoundsTo.scale {N U S c : ℤ} (h : RoundsTo N U S) (hc : 0 < c) : RoundsTo (N * c) (U * c) S := by
  have hscale : ∀ t : ℤ, |N * c - t * (U * c)| = |N - t * U| * c := fun t => by
    rw [← mul_assoc, ← sub_mul, abs_mul, abs_of_pos hc]
  intro t
  rw [hscale, hscale]
  exact ⟨mul_le_mul_of_nonneg_right (h t).1 hc.le, fun htie => (h t).2 (mul_right_cancel₀ hc.ne' htie)⟩

/-- The distance of `q * D + r` from a multiple of D: r from the one below, D - r from the one above,
and at least D from any other. -/
theorem abs_sub_mul_cases {q D r : ℤ} (hr : 0 ≤ r) (hrD : r < D) (t : ℤ) :
    (t = q ∧ |q * D + r - t * D| = r) ∨ (t = q + 1 ∧ |q * D + r - t * D| = D - r) ∨
      (t ≠ q ∧ t ≠ q + 1 ∧ D ≤ |q * D + r - t * D|) := by
  have hdiff : q * D + r - t * D = r - (t - q) * D := by ring
  rw [hdiff]
  rcases lt_trichotomy t q with hlt | rfl | hgt
  · refine .inr (.inr ⟨by omega, by omega, le_abs.mpr (.inl ?_)⟩)
    nlinarith
  · exact .inl ⟨rfl, by rw [sub_self, zero_mul, sub_zero, abs_of_nonneg hr]⟩
  · rcases eq_or_lt_of_le (Int.add_one_le_of_lt hgt) with rfl | hgt'
    · refine .inr (.inl ⟨rfl, ?_⟩)
      rw [add_sub_cancel_left, one_mul, abs_sub_comm, abs_of_pos (sub_pos.mpr hrD)]
    · refine .inr (.inr ⟨by omega, by omega, le_abs.mpr (.inr ?_)⟩)
      nlinarith

/-- `roundShift` rounds to nearest, ties to even (R99). -/
theorem roundShift_roundsTo (n k : Nat) : RoundsTo n (2 ^ k : Nat) (roundShift n k) := by
  have hpos := Nat.two_pow_pos k
  simp only [roundShift]
  generalize 2 ^ k = D at hpos ⊢
  have hlt : ((n % D : Nat) : ℤ) < D := Int.ofNat_lt.mpr (Nat.mod_lt _ hpos)
  have hcases := abs_sub_mul_cases (q := (n / D : Nat)) (Int.natCast_nonneg _) hlt
  have hn : (n / D : Nat) * (D : ℤ) + (n % D : Nat) = n := by exact_mod_cast Nat.div_add_mod' n D
  rw [hn] at hcases
  intro t
  have ht := hcases t
  have hS := hcases (if D < 2 * (n % D) ∨ 2 * (n % D) = D ∧ n / D % 2 = 1 then n / D + 1 else n / D : Nat)
  split at hS <;> split <;> omega

/-! ### The significand -/

theorem significand_bounds {n : Nat} (hn : n ≠ 0) :
    2 ^ 52 ≤ significand n n.log2 ∧ significand n n.log2 ≤ 2 ^ 53 := by
  have hlow := Nat.log2_self_le hn
  have hhigh := Nat.lt_log2_self (n := n)
  unfold significand
  split
  · next he =>
    have hpos := Nat.two_pow_pos (52 - n.log2)
    constructor
    · calc 2 ^ 52 = 2 ^ n.log2 * 2 ^ (52 - n.log2) := by rw [← Nat.pow_add, Nat.add_sub_cancel' he]
        _ ≤ n * 2 ^ (52 - n.log2) := Nat.mul_le_mul_right _ hlow
    · calc n * 2 ^ (52 - n.log2) ≤ 2 ^ (n.log2 + 1) * 2 ^ (52 - n.log2) := Nat.mul_le_mul_right _ hhigh.le
        _ = 2 ^ 53 := by rw [← Nat.pow_add]; congr 1; omega
  · next he =>
    have hq : 2 ^ 52 ≤ n / 2 ^ (n.log2 - 52) := by
      rw [Nat.le_div_iff_mul_le (Nat.two_pow_pos _), ← Nat.pow_add, Nat.add_sub_cancel' (by omega)]
      exact hlow
    have hq' : n / 2 ^ (n.log2 - 52) < 2 ^ 53 := by
      rw [Nat.div_lt_iff_lt_mul (Nat.two_pow_pos _), ← Nat.pow_add, show 53 + (n.log2 - 52) = n.log2 + 1 by omega]
      exact hhigh
    simp only [roundShift]
    split <;> omega

/-- The significand is `n` rounded to the grid of the doubles next to it (R43). -/
theorem significand_roundsTo (n : Nat) :
    RoundsTo (n * 2 ^ 1074) (2 ^ (n.log2 + 1022)) (significand n n.log2) := by
  unfold significand
  split
  · next he =>
    refine roundsTo_of_eq_mul ?_ (by positivity)
    rw [Nat.cast_mul, Nat.cast_pow, Nat.cast_ofNat, mul_assoc, ← pow_add,
      show 52 - n.log2 + (n.log2 + 1022) = 1074 by omega]
  · next he =>
    have hscaled := (roundShift_roundsTo n (n.log2 - 52)).scale (c := 2 ^ 1074) (by positivity)
    rwa [Nat.cast_pow, Nat.cast_ofNat, ← pow_add, show n.log2 - 52 + 1074 = n.log2 + 1022 by omega] at hscaled

/-! ### The fields of F64VAL -/

/-- The encoding of a positive number: its sign, the range of its exponent, its magnitude, and the
parity of its fraction.  A significand of 2^53 carries into the exponent. -/
theorem f64OfNat_fields {n : Nat} (hn : n ≠ 0) (hlt : n < 2 ^ 64) :
    f64Sign (f64OfNat n) = false ∧ 1023 ≤ f64Exponent (f64OfNat n) ∧ f64Exponent (f64OfNat n) ≤ 1087 ∧
      f64Magnitude (f64OfNat n) = significand n n.log2 * 2 ^ (n.log2 + 1022) ∧
      f64Fraction (f64OfNat n) % 2 = significand n n.log2 % 2 := by
  obtain ⟨hlow, hhigh⟩ := significand_bounds hn
  have he : n.log2 < 64 := (Nat.log2_lt hn).mpr hlt
  rw [f64OfNat, if_neg hn]
  generalize significand n n.log2 = S at hlow hhigh ⊢
  generalize n.log2 = e at he ⊢
  rcases Nat.lt_or_eq_of_le hhigh with hS | rfl
  · obtain ⟨hsign, hexp, hfrac⟩ := f64_fields_ofNat (E := e + 1023) (f := S - 2 ^ 52) (by omega) (by omega)
    rw [f64Magnitude_of_exponent_ne_zero (by omega), hsign, hexp, hfrac, Nat.add_sub_cancel' hlow]
    exact ⟨rfl, by omega, by omega, rfl, by omega⟩
  · have hcarry : (e + 1023) * 2 ^ 52 + (2 ^ 53 - 2 ^ 52) = (e + 1024) * 2 ^ 52 + 0 := by omega
    obtain ⟨hsign, hexp, hfrac⟩ := f64_fields_ofNat (E := e + 1024) (f := 0) (by omega) (by decide)
    rw [hcarry, f64Magnitude_of_exponent_ne_zero (by omega), hsign, hexp, hfrac]
    refine ⟨rfl, by omega, by omega, ?_, rfl⟩
    rw [Nat.add_zero, show e + 1024 - 1 = e + 1022 + 1 by omega, Nat.pow_succ' (n := e + 1022), ← Nat.mul_assoc,
      ← Nat.pow_succ]

/-! ### The laws of R99 for a positive index -/

section
variable {n : Nat}

theorem f64Scaled_f64OfNat (hn : n ≠ 0) (hlt : n < 2 ^ 64) :
    f64Scaled (f64OfNat n) = significand n n.log2 * 2 ^ (n.log2 + 1022) := by
  obtain ⟨hsign, -, -, hmag, -⟩ := f64OfNat_fields hn hlt
  rw [f64Scaled_of_nonneg hsign, hmag]
  push_cast
  rfl

/-- The double below which the grid of `n` ends is not above `n`. -/
theorem grid_start_le (hn : n ≠ 0) : (2 ^ 52 : ℤ) * 2 ^ (n.log2 + 1022) ≤ n * 2 ^ 1074 := by
  have hlow : (2 : ℤ) ^ n.log2 ≤ n := by exact_mod_cast Nat.log2_self_le hn
  calc (2 ^ 52 : ℤ) * 2 ^ (n.log2 + 1022) = 2 ^ n.log2 * 2 ^ 1074 := by
        rw [← pow_add, ← pow_add, show 52 + (n.log2 + 1022) = n.log2 + 1074 by omega]
    _ ≤ n * 2 ^ 1074 := mul_le_mul_of_nonneg_right hlow (by positivity)

theorem floatError_eq_abs (n : Nat) (v : Double) : (floatError n v : ℤ) = |(n : ℤ) * 2 ^ 1074 - f64Scaled v| :=
  Int.natCast_natAbs _

/-- A multiple of the grid of `n` is no nearer to `n` than the conversion. -/
theorem floatError_f64OfNat_le (hn : n ≠ 0) (hlt : n < 2 ^ 64) (t : ℤ) :
    (floatError n (f64OfNat n) : ℤ) ≤ |n * 2 ^ 1074 - t * 2 ^ (n.log2 + 1022)| := by
  rw [floatError_eq_abs, f64Scaled_f64OfNat hn hlt]
  exact (significand_roundsTo n t).1

/-- A double below the grid of `n` is farther from `n` than the conversion. -/
theorem floatError_f64OfNat_lt_of_below (hn : n ≠ 0) (hlt : n < 2 ^ 64) {w : Double}
    (hw : f64Scaled w < (2 ^ 52 * 2 ^ (n.log2 + 1022) : Nat)) : floatError n (f64OfNat n) < floatError n w := by
  have hstart := grid_start_le hn
  have hle := floatError_f64OfNat_le hn hlt (2 ^ 52)
  push_cast at hw
  rw [abs_of_nonneg (sub_nonneg.mpr hstart)] at hle
  rw [← Int.ofNat_lt, floatError_eq_abs n w, abs_of_nonneg (sub_nonneg.mpr (hw.le.trans hstart))]
  exact hle.trans_lt (sub_lt_sub_left hw _)

/-- No double is nearer to `n`, and where another is as near the fraction is even. -/
theorem f64OfNat_nearest (hn : n ≠ 0) (hlt : n < 2 ^ 64) (w : Double) :
    floatError n (f64OfNat n) ≤ floatError n w ∧
      (w ≠ f64OfNat n → floatError n w = floatError n (f64OfNat n) → f64Fraction (f64OfNat n) % 2 = 0) := by
  rcases f64_on_grid_or_below w (n.log2 + 1022) with ⟨hs, t, ht⟩ | hbelow
  · obtain ⟨hsign, -, -, hmag, hparity⟩ := f64OfNat_fields hn hlt
    have hw : f64Scaled w = t * 2 ^ (n.log2 + 1022) := by
      rw [f64Scaled_of_nonneg hs, ht, Nat.mul_comm]
      push_cast
      rfl
    obtain ⟨hle, htie⟩ := significand_roundsTo n t
    rw [← hw, ← f64Scaled_f64OfNat hn hlt, ← floatError_eq_abs, ← floatError_eq_abs] at hle htie
    refine ⟨Int.ofNat_le.mp hle, fun hne heq => ?_⟩
    have heven := htie (congrArg Nat.cast heq) fun hts => hne (eq_of_sign_of_magnitude (hs.trans hsign.symm) ?_)
    · omega
    · rw [hmag, ht, Int.ofNat_inj.mp hts, Nat.mul_comm]
  · have hlt := floatError_f64OfNat_lt_of_below hn hlt hbelow
    exact ⟨hlt.le, fun _ heq => absurd heq hlt.ne'⟩

/-- The conversion is exact for the numbers whose set bits span at most 53 positions. -/
theorem floatError_f64OfNat_eq_zero_iff (hn : n ≠ 0) (hlt : n < 2 ^ 64) :
    floatError n (f64OfNat n) = 0 ↔ ∃ m e, m < 2 ^ 53 ∧ n = m * 2 ^ e := by
  have hhigh := Nat.lt_log2_self (n := n)
  constructor
  · intro h
    rcases Nat.lt_or_ge 52 n.log2 with he | he
    · have heq : n * 2 ^ 1074 = significand n n.log2 * 2 ^ (n.log2 - 52) * 2 ^ 1074 := by
        rw [Nat.mul_assoc, ← Nat.pow_add, show n.log2 - 52 + 1074 = n.log2 + 1022 by omega]
        rw [floatError, f64Scaled_f64OfNat hn hlt, Int.natAbs_eq_zero, sub_eq_zero] at h
        rwa [← Int.ofNat_inj, Nat.cast_mul, Nat.cast_mul, Nat.cast_pow, Nat.cast_pow, Nat.cast_ofNat]
      have hsig := Nat.eq_of_mul_eq_mul_right (pow_pos two_pos 1074) heq
      rcases Nat.lt_or_eq_of_le (significand_bounds hn).2 with hS | hS
      · exact ⟨_, _, hS, hsig⟩
      · refine ⟨1, 53 + (n.log2 - 52), by decide, ?_⟩
        rwa [hS, ← Nat.pow_add, ← Nat.one_mul (2 ^ _)] at hsig
    · exact ⟨n, 0, hhigh.trans_le (Nat.pow_le_pow_right (by decide) (by omega)), (Nat.mul_one n).symm⟩
  · rintro ⟨m, e, hm, hne⟩
    have he : n.log2 < 53 + e := by
      rw [Nat.log2_lt hn, Nat.pow_add, hne]
      exact Nat.mul_lt_mul_of_pos_right hm (Nat.two_pow_pos e)
    have hgrid : (n : ℤ) * 2 ^ 1074 = (m * 2 ^ (e + 52 - n.log2) : Nat) * 2 ^ (n.log2 + 1022) := by
      rw [Nat.cast_mul, Nat.cast_pow, Nat.cast_ofNat, mul_assoc, ← pow_add,
        show e + 52 - n.log2 + (n.log2 + 1022) = e + 1074 by omega, pow_add, ← mul_assoc]
      congr 1
      exact_mod_cast hne
    have hle := floatError_f64OfNat_le hn hlt (m * 2 ^ (e + 52 - n.log2) : Nat)
    rw [← hgrid, sub_self, abs_zero] at hle
    omega

/-- The largest value is 2^64. -/
theorem f64Scaled_f64OfNat_le (hn : n ≠ 0) (hlt : n < 2 ^ 64) : f64Scaled (f64OfNat n) ≤ 2 ^ 64 * 2 ^ 1074 := by
  have he : n.log2 < 64 := (Nat.log2_lt hn).mpr hlt
  have hsig : (significand n n.log2 : ℤ) ≤ 2 ^ 53 := by exact_mod_cast (significand_bounds hn).2
  rw [f64Scaled_f64OfNat hn hlt]
  calc (significand n n.log2 : ℤ) * 2 ^ (n.log2 + 1022) ≤ 2 ^ 53 * 2 ^ (n.log2 + 1022) :=
        mul_le_mul_of_nonneg_right hsig (by positivity)
    _ = 2 ^ (n.log2 + 1075) := by rw [← pow_add, show 53 + (n.log2 + 1022) = n.log2 + 1075 by omega]
    _ ≤ 2 ^ (64 + 1074) := pow_le_pow_right₀ (by decide) (by omega)
    _ = 2 ^ 64 * 2 ^ 1074 := pow_add ..

end

/-! ### The float of an index -/

/-- Index 0 is +0, exactly. -/
theorem floatError_zero : floatError 0 0 = 0 := by
  have hscaled : f64Scaled 0 = 0 := by decide
  rw [floatError, hscaled, Nat.cast_zero, zero_mul, sub_zero, Int.natAbs_zero]

/-- The numbers up to 2^53 have set bits in at most 53 positions. -/
theorem exists_of_le_two_pow_53 {n : Nat} (h : n ≤ 2 ^ 53) : ∃ m e, m < 2 ^ 53 ∧ n = m * 2 ^ e := by
  rcases Nat.lt_or_eq_of_le h with hlt | rfl
  · exact ⟨n, 0, hlt, (Nat.mul_one n).symm⟩
  · exact ⟨1, 53, by decide, rfl⟩

/-- Settles O26: index 0 by evaluation, a positive index by the laws above. -/
theorem floatRoundsToNearestEven : Obligations.FloatRoundsToNearestEven := by
  refine ⟨fun lo hi => ?_, f64val_zero, by decide⟩
  have hlt : hi.toNat * 2 ^ 32 + lo.toNat < 2 ^ 64 := by
    have hhi := hi.isLt
    have hlo := lo.isLt
    omega
  rw [f64val]
  generalize hi.toNat * 2 ^ 32 + lo.toNat = n at hlt ⊢
  rcases eq_or_ne n 0 with rfl | hn
  · have hzero : f64OfNat 0 = 0 := rfl
    have hscaled : f64Scaled 0 = 0 := by decide
    rw [hzero]
    refine ⟨by decide, by decide, fun _ => ⟨rfl, rfl⟩, fun w _ => floatError_zero.trans_le (Nat.zero_le _),
      fun _ _ _ _ => by decide, fun _ => floatError_zero,
      ⟨fun _ => ⟨0, 0, by decide, rfl⟩, fun _ => floatError_zero⟩, ?_⟩
    exact hscaled.trans_le (by positivity)
  · obtain ⟨hsign, hexp, hexp', -, -⟩ := f64OfNat_fields hn hlt
    refine ⟨bne_iff_ne.mpr (by omega), hsign, fun h => by omega, fun w _ => (f64OfNat_nearest hn hlt w).1,
      fun w _ => (f64OfNat_nearest hn hlt w).2, fun h => ?_, floatError_f64OfNat_eq_zero_iff hn hlt,
      f64Scaled_f64OfNat_le hn hlt⟩
    exact (floatError_f64OfNat_eq_zero_iff hn hlt).mpr (exists_of_le_two_pow_53 h)

end Sys2Proof.Machine
end

section
/-! PROOF. The exception: which requests raise it, what records it, and what a run without it
promises (`60_exceptions.md`). -/

namespace Sys2Proof.Machine

open Sys2Proof.Claims

/-! ### One request -/

/-- Every request is answered with its transaction-level response, whatever its opcode (R120, R121). -/
theorem answers_respond (i : Instr) (s : State) : Answers i s (respond s.hasF64 i) := by
  cases hi : i.isReserved with
  | false => exact answers_of_defined hi s
  | true => exact ⟨_, exec_reserved hi s, by rw [State.newest_raiseIllegalOp, respond_reserved hi]⟩

/-- ERR tells the reserved operations from the defined ones (R25). -/
theorem respond_err (f : Bool) (i : Instr) : (respond f i).err = i.isReserved := by
  cases hi : i.isReserved with
  | false => exact respond_err_of_defined hi f
  | true => rw [respond_reserved hi, illegalResponse_of_reserved hi]

/-- Settles O28: the response is the transaction-level one, and its ERR follows the opcode. -/
theorem errExactlyForReservedOpcodes : Obligations.ErrExactlyForReservedOpcodes := by
  intro i s
  refine ⟨respond s.hasF64 i, answers_respond i s, ?_⟩
  rw [respond_err, isReserved_iff_opcode]

/-! ### One cycle -/

/-- Settles O32, by induction on the length of the run. -/
theorem everyCycleCompletes : Obligations.EveryCycleCompletes := run_completes

/-- The request on the ports is reserved exactly when its OP field is 6 or 7 (R54). -/
theorem isReserved_decode_word_iff (c : Cycle) : (decode c.word).isReserved = true ↔ 6 ≤ c.op.toNat := by
  obtain ⟨hop, -, -⟩ := decode_fields c.word
  rw [isReserved_iff_opcode, hop, Cycle.word, reqOp_packReq]

/-- The fault mark after a step: it stays where it was set, and the acceptance of a reserved opcode
sets it (R123, log 9). -/
theorem step_faultMark_iff {s t : State} (h : step s = .next t) : t.faultMark = true ↔
    s.faultMark = true ∨ (s.cycleKind = .request ∧ 6 ≤ s.ports.op.toNat) := by
  rw [← isReserved_decode_word_iff]
  rcases step_cases h with ⟨hk, rfl⟩ | ⟨hk, hdef, rfl⟩ | ⟨hk, hres, rfl⟩ | ⟨hk, rfl⟩
  · simp [hk]
  · simp [hdef]
  · simp [hk, hres]
  · simp [hk]

/-- Settles O34: what sets the mark is said for every step, and a request cycle with a reserved
opcode raises ILLEGAL_OP. -/
theorem faultMarkRecordsReservedOpcodes : Obligations.FaultMarkRecordsReservedOpcodes := by
  intro s
  obtain ⟨t, hstep, -⟩ := step_completes s
  refine ⟨t, hstep, step_faultMark_iff hstep, fun hk hop => ?_⟩
  have hres : (decode s.ports.word).isReserved = true := (isReserved_decode_word_iff _).mpr hop
  rw [step_of_request hk, exec_reserved hres] at hstep
  cases hstep
  rw [State.newest_raiseIllegalOp, illegalResponse_of_reserved hres, State.sampled_hasF64]

/-! ### Safe runs -/

/-- A safe run starts with the fault mark clear (R123). -/
theorem faultMark_of_safeFor {k : Nat} {s : State} (h : safeFor k s = true) : s.faultMark = false := by
  cases k <;> simp_all [safeFor]

/-- The first cycle of a safe run resets nothing in flight, and the rest of the run is safe. -/
theorem safeFor_succ {k : Nat} {s t : State} (h : safeFor (k + 1) s = true) (hstep : step s = .next t) :
    s.resetInFlight = false ∧ safeFor k t = true := by
  simp only [safeFor, hstep, Bool.and_eq_true, Bool.not_eq_true'] at h
  obtain ⟨⟨-, hrst⟩, hrest⟩ := h
  exact ⟨hrst, hrest⟩

/-- What is left of a safe run after its first `j` cycles is a safe run. -/
theorem safeFor_of_run {j k : Nat} {s t : State} (h : safeFor (j + k) s = true) (hrun : run j s = .next t) :
    safeFor k t = true := by
  induction j generalizing s with
  | zero => cases hrun; rwa [Nat.zero_add] at h
  | succ j ih =>
    obtain ⟨u, hstep, hrun'⟩ := run_succ_next hrun
    rw [Nat.succ_add] at h
    exact ih (safeFor_succ h hstep).2 hrun'

/-- While a request is in flight, a cycle that resets nothing in flight has `rst = 0` (R151). -/
theorem State.rst_of_mem_line {s : State} {v : Slot} (h : s.resetInFlight = false) (hv : v ∈ s.line)
    (hvalid : v.valid = true) : s.ports.rst = false := by
  have hflight : s.inFlight = true := List.any_eq_true.mpr ⟨v, hv, hvalid⟩
  rwa [State.resetInFlight, hflight, Bool.true_and] at h

/-- No reset comes in the coming cycle and the `n` after it, if none comes in it and none in the
first `n` cycles from the next state on. -/
theorem State.rst_of_inputs_tail {s t : State} {n : Nat} (hinputs : t.inputs = s.inputs.tail)
    (h0 : s.ports.rst = false) (h : ∀ j < n, (t.portsAt j).rst = false) :
    ∀ j < n + 1, (s.portsAt j).rst = false := by
  intro j hj
  cases j with
  | zero => rwa [State.portsAt_zero]
  | succ j =>
    rw [← State.portsAt_of_inputs_tail hinputs]
    exact h j (Nat.lt_of_succ_lt_succ hj)

/-- In a safe run no reset comes while a slot that holds a request moves on to the end of the line. -/
theorem rst_of_safeFor_of_slot {s : State} {newer older : List Slot} {v : Slot}
    (hline : s.line = newer ++ v :: older) (hvalid : v.valid = true) (h : safeFor (older.length + 1) s = true) :
    ∀ j < older.length, (s.portsAt j).rst = false := by
  induction older using List.reverseRecOn generalizing s newer with
  | nil => exact fun j hj => absurd hj (Nat.not_lt_zero j)
  | append_singleton older last ih =>
    rw [List.length_append, List.length_singleton] at h ⊢
    obtain ⟨t, hstep, hinputs⟩ := step_completes s
    obtain ⟨hreset, hsafe⟩ := safeFor_succ h hstep
    have hrst0 : s.ports.rst = false := State.rst_of_mem_line hreset (by simp [hline]) hvalid
    rw [← List.cons_append, ← List.append_assoc] at hline
    have hline' : t.line = (s.entering :: newer) ++ v :: older := step_line_concat hstep hrst0 hline
    exact State.rst_of_inputs_tail hinputs hrst0 (ih hline' hsafe)

/-- In a safe run no reset comes between the acceptance of a request and its response (R151). -/
theorem rst_of_safeFor_of_request {s : State} (hk : s.cycleKind = .request)
    (h : safeFor (s.latency + 1) s = true) : ∀ j < s.latency, (s.portsAt j).rst = false := by
  obtain ⟨hin, hrst⟩ := State.cycleKind_request.mp hk
  obtain ⟨hlat, -⟩ | ⟨older, last, hlat, hline⟩ := s.line_cases <;> rw [hlat] at h hrst ⊢
  · exact fun j hj => absurd hj (Nat.not_lt_zero j)
  obtain ⟨t, hstep, hinputs⟩ := step_completes s
  have hrst0 : s.ports.rst = false := hrst.resolve_right (Nat.succ_ne_zero _)
  have hline' : t.line = [] ++ s.entering :: older := step_line_concat hstep hrst0 hline
  have hvalid : s.entering.valid = true := by rw [State.entering, if_pos hin]
  exact State.rst_of_inputs_tail hinputs hrst0 (rst_of_safeFor_of_slot hline' hvalid (safeFor_succ h hstep).2)

/-- A request accepted in a safe run is answered with ERR = 0, since its opcode sets no mark (R123). -/
theorem transact_err_of_safeFor_of_request {k : Nat} {s : State} (hk : s.cycleKind = .request)
    (h : safeFor (k + 1) s = true) : (transact s.hasF64 s.ports.word).err = false := by
  obtain ⟨t, hstep, -⟩ := step_completes s
  have hmark : t.faultMark = false := faultMark_of_safeFor (safeFor_succ h hstep).2
  rw [transact, respond_err, ← Bool.not_eq_true, isReserved_decode_word_iff]
  intro hop
  simp [(step_faultMark_iff hstep).mpr (.inr ⟨hk, hop⟩)] at hmark

/-- Settles O42: from the cycle that accepts the request on, a safe run neither resets the block
before the response nor sets the fault mark. -/
theorem safeRunAnswersEveryRequest : Obligations.SafeRunAnswersEveryRequest := by
  intro s t hsafe hin hrst
  obtain ⟨v, hrun, hinputs⟩ := run_completes t s
  obtain ⟨hlat, hf64⟩ := run_keeps_build hrun
  have hports : v.ports = s.portsAt t := by
    rw [← State.portsAt_zero, State.portsAt_of_inputs_drop hinputs, Nat.add_zero]
  have hk : v.cycleKind = .request := State.cycleKind_request.mpr (by rw [hports, hlat]; exact ⟨hin, hrst⟩)
  have hsafe' : safeFor (v.latency + 1) v = true := by
    rw [Nat.add_assoc, ← hlat] at hsafe
    exact safeFor_of_run hsafe hrun
  obtain ⟨u, hrun', hu⟩ := run_presents_response fun j hj => by
    rw [← State.portsAt_of_inputs_drop hinputs]
    exact rst_of_safeFor_of_request hk hsafe' j (hlat ▸ hj)
  rw [if_pos hin] at hu
  refine ⟨u, hrun', hu, ?_⟩
  rw [(State.presented_eq_some.mp hu).2, ← hports, ← hf64]
  exact transact_err_of_safeFor_of_request hk hsafe'

end Sys2Proof.Machine
end

section
/-! PROOF. Reset and the hazards of the delay line (`70_reset_and_hazards.md`): a reset empties the
line, an empty line presents nothing, and what the ports present depends on the valid slots alone. -/

namespace Sys2Proof.Machine

/-! ### One idle cycle -/

/-- The slot that enters stands in slot 1, or on the ports where `LATENCY = 0`. -/
theorem State.newest_clock_valid (s : State) (v : Slot) : (s.clock v).newest.valid = v.valid := by
  cases h : s.line with
  | nil => simp [State.newest, State.leaving, h]
  | cons w ws => simp [State.newest, h]

/-- Settles O31: an idle cycle is one clock edge with a drawn slot, which is empty. -/
theorem idleCycleIssuesNothing : Obligations.IdleCycleIssuesNothing := by
  intro s hin hrst
  have hk : s.cycleKind = .idle := State.cycleKind_idle.mpr ⟨hin, .inl hrst⟩
  have hstep : step s = .next s.sampled.idleCycle := by simp only [step, hk]
  have hnew : s.sampled.idleCycle.newest.valid = false := s.sampled.newest_clock_valid _
  exact ⟨_, hstep, hnew, rfl, rfl, rfl, lineMoves_clock s.sampled _⟩

/-! ### The reset cycle -/

/-- A reset cycle accepts no request, whatever is on the ports (R140). -/
theorem step_of_reset {s : State} (h : s.cycleKind = .reset) : step s = .next s.sampled.resetCycle := by
  simp only [step, h]

/-- A reset cycle clears every valid bit (R140). -/
theorem State.valid_of_mem_resetCycle {s : State} {v : Slot} (hv : v ∈ s.resetCycle.line) : v.valid = false := by
  obtain ⟨n, rfl⟩ := mem_drawSlots hv
  rfl

/-- In a combinational build `rst` has no effect (R23, log 8). -/
theorem step_ignores_rst {s : State} (h : s.latency = 0) :
    step s = step { s with inputs := { s.ports with rst := false } :: s.inputs.tail } := by
  have hlat : decide (0 < s.latency) = false := by simp [h]
  simp only [step, State.cycleKind, State.latency] at hlat ⊢
  simp only [hlat, Bool.and_false]
  rfl

/-! ### Empty slots present nothing -/

/-- The last `n` slots of the line, those presented next, are empty. -/
def State.EmptyEnd (s : State) (n : Nat) : Prop :=
  ∃ newer older, s.line = newer ++ older ∧ n ≤ older.length ∧ ∀ v ∈ older, v.valid = false

/-- A reset empties the whole line (R140). -/
theorem State.emptyEnd_resetCycle (s : State) {n : Nat} (hn : n ≤ s.latency) : s.resetCycle.EmptyEnd n :=
  ⟨[], s.resetCycle.line, rfl, hn.trans_eq s.latency_resetCycle.symm, fun _ => State.valid_of_mem_resetCycle⟩

/-- An empty slot at the end presents nothing, and those before it come to the end: a cycle without
a reset moves them on, and a reset empties the rest of the line too (R140, R144). -/
theorem step_of_emptyEnd {s t : State} {n : Nat} (hstep : step s = .next t) (h : s.EmptyEnd (n + 1)) :
    t.presented = none ∧ t.EmptyEnd n := by
  obtain ⟨newer, older, hline, hn, hempty⟩ := h
  obtain rfl | ⟨older, last, rfl⟩ := List.eq_nil_or_concat' older
  · exact absurd hn (Nat.not_succ_le_zero n)
  rw [← List.append_assoc] at hline
  rw [List.length_append, List.length_singleton] at hn
  have hlast : last.valid = false := hempty last (by simp)
  constructor
  · rw [step_presented hstep, State.leaving_concat hline, Slot.presented, hlast]
    rfl
  · have hlat : n < s.latency := by
      simp only [State.latency, hline, List.length_append, List.length_singleton]
      omega
    cases hrst : s.ports.rst with
    | false =>
      exact ⟨s.entering :: newer, older, step_line_concat hstep hrst hline, Nat.le_of_succ_le_succ hn,
        fun v hv => hempty v (List.mem_append_left _ hv)⟩
    | true =>
      have hk : s.cycleKind = .reset := State.cycleKind_reset.mpr ⟨hrst, Nat.zero_lt_of_lt hlat⟩
      cases (step_of_reset hk).symm.trans hstep
      exact s.sampled.emptyEnd_resetCycle hlat.le

/-- While the last slots of the line are empty, nothing is presented, whatever the host drives. -/
theorem run_presents_none_of_emptyEnd {s : State} {j : Nat} (h : s.EmptyEnd (j + 1)) :
    ∃ u, run (j + 1) s = .next u ∧ u.presented = none := by
  induction j generalizing s with
  | zero =>
    obtain ⟨t, hstep, -⟩ := step_completes s
    exact ⟨t, run_succ hstep 0, (step_of_emptyEnd hstep h).1⟩
  | succ j ih =>
    obtain ⟨t, hstep, -⟩ := step_completes s
    rw [run_succ hstep]
    exact ih (step_of_emptyEnd hstep h).2

/-- Nothing is presented in the `LATENCY` cycles after a reset cycle (R140). -/
theorem run_resetCycle_presents_none {s : State} {j : Nat} (hj : j < s.latency) :
    ∃ u, run (j + 1) s.resetCycle = .next u ∧ u.presented = none :=
  run_presents_none_of_emptyEnd (s.emptyEnd_resetCycle hj)

/-- Settles O36: the reset cycle leaves only empty slots, and those present nothing. -/
theorem nothingIsPresentedAfterReset : Obligations.NothingIsPresentedAfterReset := by
  refine ⟨fun s hlat hrst => ?_, fun s => step_ignores_rst⟩
  have hstep := step_of_reset (State.cycleKind_reset.mpr ⟨hrst, hlat⟩)
  refine ⟨_, hstep, fun v => State.valid_of_mem_resetCycle, s.sampled.latency_resetCycle, rfl, rfl, rfl, ?_⟩
  intro j hj
  obtain ⟨u, hrun, hu⟩ := run_resetCycle_presents_none (s := s.sampled) hj
  exact ⟨u, hrun, State.presented_eq_none.mp hu⟩

/-! ### Responses and resets -/

/-- Settles O39: the response comes if no reset does, and the presenting cycle does not matter. -/
theorem responseComesAfterLatency : Obligations.ResponseComesAfterLatency :=
  fun _ _ hrst => run_presents_response fun j hj => hrst j hj.le

/-- A reset in cycle `t + j` discards the request of cycle `t`, if it comes before the response (R140). -/
theorem run_presents_none_of_rst {s : State} {t j : Nat} (hj : j < s.latency)
    (hrst : (s.portsAt (t + j)).rst = true) : ∃ u, run (t + s.latency + 1) s = .next u ∧ u.presented = none := by
  obtain ⟨v, hrun, hinputs⟩ := run_completes (t + j) s
  obtain ⟨hlat, -⟩ := run_keeps_build hrun
  have hports : v.ports = s.portsAt (t + j) := by
    rw [← State.portsAt_zero, State.portsAt_of_inputs_drop hinputs, Nat.add_zero]
  have hk : v.cycleKind = .reset := State.cycleKind_reset.mpr ⟨hports ▸ hrst, by omega⟩
  obtain ⟨u, hrun', hu⟩ := run_resetCycle_presents_none (s := v.sampled) (j := s.latency - j - 1)
    (by rw [State.sampled_latency]; omega)
  refine ⟨u, ?_, hu⟩
  calc run (t + s.latency + 1) s
      = run (t + j + (s.latency - j - 1 + 1 + 1)) s := by congr 1; omega
    _ = run (s.latency - j - 1 + 1 + 1) v := run_add hrun _
    _ = run (s.latency - j - 1 + 1) v.sampled.resetCycle := run_succ (step_of_reset hk) _
    _ = .next u := hrun'

/-- Settles O40: either no reset comes in time, or one discards the request. -/
theorem responseComesUnlessReset : Obligations.ResponseComesUnlessReset := by
  intro s t _
  by_cases hrst : ∀ j < s.latency, (s.portsAt (t + j)).rst = false
  · simp only [and_iff_left hrst]
    exact run_presents_response hrst
  · rw [if_neg fun h => hrst h.2]
    push Not at hrst
    obtain ⟨j, hj, hreset⟩ := hrst
    exact run_presents_none_of_rst hj (Bool.eq_true_of_not_eq_false hreset)

/-! ### What a reset forgets -/

/-- Two machines that the host cannot tell apart from now on: one build, one schedule, and slot by
slot the same response or none.  The data of empty slots, the ports, the fault mark and the count of
draws may differ. -/
structure State.LooksLike (s s' : State) : Prop where
  inputs : s.inputs = s'.inputs
  hasF64 : s.hasF64 = s'.hasF64
  line : s.line.map Slot.presented = s'.line.map Slot.presented

namespace State.LooksLike

variable {s s' : State} (h : s.LooksLike s')
include h

theorem ports : s.ports = s'.ports := by rw [State.ports, State.ports, h.inputs]

theorem latency : s.latency = s'.latency := by
  rw [State.latency, State.latency, ← List.length_map, h.line, List.length_map]

theorem cycleKind : s.cycleKind = s'.cycleKind := by
  rw [State.cycleKind, State.cycleKind, h.ports, h.latency]

theorem entering : s.entering.presented = s'.entering.presented := by
  rw [State.presented_entering, State.presented_entering, h.ports, h.hasF64]

end State.LooksLike

/-- What the leaving slot presents is the last response of the line, or the entering one. -/
theorem State.presented_leaving (s : State) (v : Slot) :
    (s.leaving v).presented = (s.line.map Slot.presented).getLastD v.presented := by
  rw [State.leaving, List.getLastD_eq_getLast?, List.getLastD_eq_getLast?, List.getLast?_map, Option.getD_map]

/-- The responses in the line after a reset cycle: none (R140). -/
theorem State.map_presented_resetCycle (s : State) :
    s.resetCycle.line.map Slot.presented = List.replicate s.latency none := by
  refine List.eq_replicate_iff.mpr ⟨by simp, fun r hr => ?_⟩
  obtain ⟨v, hv, rfl⟩ := List.mem_map.mp hr
  rw [Slot.presented, State.valid_of_mem_resetCycle hv, if_neg Bool.false_ne_true]

/-- The responses in the line after a step: none after a reset, and otherwise those of before moved
on by one (R140, R144). -/
theorem step_map_presented {s t : State} (h : step s = .next t) : t.line.map Slot.presented =
    if s.cycleKind = .reset then List.replicate s.latency none
    else (s.entering.presented :: s.line.map Slot.presented).dropLast := by
  split
  · next hk =>
    cases (step_of_reset hk).symm.trans h
    exact s.sampled.map_presented_resetCycle
  · next hk =>
    obtain ⟨m, n, hstep⟩ := step_eq_clock hk
    cases hstep.symm.trans h
    rw [← List.map_cons, ← List.map_dropLast]
    rfl

/-- A run of one cycle is a step. -/
theorem step_of_run_one {s t : State} (h : run 1 s = .next t) : step s = .next t := by
  obtain ⟨u, hstep, hrest⟩ := run_succ_next h
  cases hrest
  exact hstep

/-- A step uses up one cycle of the schedule. -/
theorem step_inputs {s t : State} (h : step s = .next t) : t.inputs = s.inputs.tail := by
  obtain ⟨u, hstep, hinputs⟩ := step_completes s
  cases hstep.symm.trans h
  exact hinputs

/-- Machines that look alike present the same in the coming cycle, and look alike after it. -/
theorem step_of_looksLike {s s' t t' : State} (h : s.LooksLike s') (hstep : step s = .next t)
    (hstep' : step s' = .next t') : t.presented = t'.presented ∧ t.LooksLike t' := by
  obtain ⟨-, hf64⟩ := step_keeps_build hstep
  obtain ⟨-, hf64'⟩ := step_keeps_build hstep'
  refine ⟨?_, by rw [step_inputs hstep, step_inputs hstep', h.inputs], by rw [hf64, hf64', h.hasF64], ?_⟩
  · rw [step_presented hstep, step_presented hstep', State.presented_leaving, State.presented_leaving,
      h.line, h.entering]
  · rw [step_map_presented hstep, step_map_presented hstep', h.cycleKind, h.latency, h.entering, h.line]

/-- Machines that look alike present the same in every later cycle. -/
theorem run_of_looksLike {s s' u u' : State} {k : Nat} (h : s.LooksLike s') (hrun : run (k + 1) s = .next u)
    (hrun' : run (k + 1) s' = .next u') : u.presented = u'.presented := by
  induction k generalizing s s' with
  | zero => exact (step_of_looksLike h (step_of_run_one hrun) (step_of_run_one hrun')).1
  | succ k ih =>
    obtain ⟨t, hstep, hrest⟩ := run_succ_next hrun
    obtain ⟨t', hstep', hrest'⟩ := run_succ_next hrun'
    exact ih (step_of_looksLike h hstep hstep').2 hrest hrest'

/-- After a reset cycle two machines of one build and one schedule look alike, whatever they held (R142). -/
theorem State.looksLike_resetCycle {s s' : State} (hinputs : s.inputs = s'.inputs) (hf64 : s.hasF64 = s'.hasF64)
    (hlat : s.latency = s'.latency) : s.resetCycle.LooksLike s'.resetCycle :=
  ⟨hinputs, hf64, by rw [State.map_presented_resetCycle, State.map_presented_resetCycle, hlat]⟩

/-- Settles O37: both machines take a reset cycle, which leaves them looking alike. -/
theorem resetForgetsTheHistory : Obligations.ResetForgetsTheHistory := by
  intro s s' hlat hf64 hinputs hpos hrst k
  have hrst' : s'.ports.rst = true := by rwa [State.ports, ← hinputs]
  have hstep := step_of_reset (State.cycleKind_reset.mpr ⟨hrst, hpos⟩)
  have hstep' := step_of_reset (State.cycleKind_reset.mpr ⟨hrst', hlat ▸ hpos⟩)
  have hlike : s.sampled.resetCycle.LooksLike s'.sampled.resetCycle :=
    State.looksLike_resetCycle (congrArg List.tail hinputs) hf64 hlat
  obtain ⟨u, hrun, -⟩ := run_completes (k + 1) s.sampled.resetCycle
  obtain ⟨u', hrun', -⟩ := run_completes (k + 1) s'.sampled.resetCycle
  exact ⟨u, u', (run_succ hstep _).trans hrun, (run_succ hstep' _).trans hrun', run_of_looksLike hlike hrun hrun'⟩

end Sys2Proof.Machine
end
